-- ==== Sys2Proof/Word.lean ====
section
/-! DEFINITION. The bit strings of the machine: words, bytes, immediates and register numbers (spec R5 to R7, R65). -/

namespace Sys2Proof

/-- A 32-bit string: a register value, an instruction word, an address (R5 XLEN, ILEN, PCLEN; R7). -/
abbrev Word := BitVec 32

/-- The smallest addressable unit of the address space (R40, R45). -/
abbrev Byte := BitVec 8

/-- The 16-bit immediate field of an RRI word (R5 IMMLEN, R62). -/
abbrev Imm := BitVec 16

/-- A 5-bit register number, 0 to 31; every value is legal in every register field (R65, R5 REGSEL). -/
abbrev RegNum := BitVec 5

/-- A 6-bit opcode (R5 OPLEN, R67). -/
abbrev Opcode := BitVec 6

end Sys2Proof
end

