-- ==== Sys2Proof/Config.lean ====
section
/-! DEFINITION. What the spec leaves to a parameter, and the values the model fixes for them (spec R5, R30, R121, R238). -/

namespace Sys2Proof

/-- How an inexact signed quotient is rounded: the two values of the spec's optional parameter SDIV_ROUNDING (R121, U1). -/
inductive SDivRounding where
  /-- The quotient is rounded toward zero, the remainder follows the dividend. -/
  | towardZero
  /-- The quotient is rounded toward minus infinity, the remainder follows the divisor. -/
  | floor
  deriving DecidableEq, Repr

/-- UNVERIFIED, unsafe (log 9): R121 and decision D6 take rounding toward zero; the source states no rounding. -/
def Config.sdivRounding : SDivRounding := .towardZero

/-- PRESUMED, unsafe (log 2): ENTRY of the launch that State.reset stands for. The spec leaves ENTRY open (R30);
this is the family's start address, named as informative in the table of R33. -/
def Config.entry : Word := 0xE0000000#32

/-- DESIGN CHOICE, unsafe (log 3): END of the launch that State.reset stands for. The spec leaves END open (R238). -/
def Config.endAddr : Word := 0x00000000#32

/-- DESIGN CHOICE, unsafe (log 1): INIT_REGS of the launch that State.reset stands for, x[1] to x[31] in order.
The spec leaves INIT_REGS open (R30). -/
def Config.initRegs : Vector Word 31 := Vector.replicate 31 0#32

end Sys2Proof
end

