-- ==== Sys2Proof/Machine/Operands.lean ====
section
/-! DEFINITION. Readings of a word as a number, truncation, the second operand of every form, and the arithmetic of
quotients, remainders and shifts (spec R7 to R10, R64, R121, R130, R160). -/

namespace Sys2Proof.Machine

/-- `unsigned(v)` (R7). -/
def unsigned (v : Word) : Nat := v.toNat

/-- `signed(v)`, two's complement (R7; UNVERIFIED, log 18). -/
def signed (v : Word) : Int := v.toInt

/-- `trunc32(n)`: the word whose unsigned reading is n mod 2^32 (R8). -/
def trunc32 (n : Int) : Word := BitVec.ofInt 32 n

/-- `sext_32(i)` (R9). -/
def sext32 (i : Imm) : Word := i.signExtend 32

/-- `zext_32(i)` (R9). -/
def zext32 (i : Imm) : Word := i.zeroExtend 32

/-- `imm ++ 0x0000`, the operand of LDHI (R64, R180). -/
def placeHigh (i : Imm) : Word := i ++ 0#16

/-- The shift amount of SLL, SLR, SAR: the 5 least significant bits of the second register operand (R160). -/
def shiftOfReg (y : Word) : Nat := (y.extractLsb' 0 5).toNat

/-- The shift amount of SLLI, SLRI, SARI: the 5 least significant bits of the immediate (R73, R160). -/
def shiftOfImm (i : Imm) : Nat := (i.extractLsb' 0 5).toNat

/-- Bits shifted to the left, filled up with 0 (R161). -/
def shiftLeft (v : Word) (n : Nat) : Word := v <<< n

/-- Bits shifted to the right, filled up with 0 (R163). -/
def shiftRightLogical (v : Word) (n : Nat) : Word := v >>> n

/-- Bits shifted to the right, the topmost bit replicated (R165). -/
def shiftRightArith (v : Word) (n : Nat) : Word := v.sshiftRight n

/-- The signed quotient under a rounding (R121). -/
def quotient : SDivRounding → Int → Int → Int
  | .towardZero, a, b => a.tdiv b
  | .floor, a, b => a.fdiv b

/-- `sdiv(a, b)` (R121). -/
def sdiv (a b : Int) : Int := quotient Config.sdivRounding a b

/-- `srem(a, b) = a - b * sdiv(a, b)` (R121). -/
def srem (a b : Int) : Int := a - b * sdiv a b

/-- `udiv(a, b) = floor(a / b)` (R130). -/
def udiv (a b : Nat) : Nat := a / b

/-- `urem(a, b) = a - b * udiv(a, b)` (R130). -/
def urem (a b : Nat) : Nat := a - b * udiv a b

/-- Bitwise XNOR: a bit is 1 exactly when the two operand bits are equal (R146). -/
def xnorWord (a b : Word) : Word := ~~~(a ^^^ b)

end Sys2Proof.Machine
end

