-- ==== Sys2Proof/Syntax.lean ====
section
/-! DEFINITION. The 31 computation instructions, one constructor per row of the opcode table (spec R1, R61 to R65).
Operands stand in the order of the assembler syntax, destination first (R80). -/

namespace Sys2Proof

/-- An instruction with its decoded operands. `rr` is the destination, `rx` and `ry` the sources, `imm` the raw 16-bit
immediate field (R61, R62; the source's r, x, y, R11). LDHI has no `rx`: its field carries no information (R72). -/
inductive Instr where
  /-- ADD, RRR, opcode 000000: Sum of two registers (R100). -/
  | add (rr rx ry : RegNum)
  /-- ADDI, RRI, opcode 000001: Sum of a register and a sign-extended immediate (R101). -/
  | addi (rr rx : RegNum) (imm : Imm)
  /-- SUB, RRR, opcode 000010: Difference of two registers (R102). -/
  | sub (rr rx ry : RegNum)
  /-- SUBI, RRI, opcode 000011: Difference of a register and a sign-extended immediate (R103). -/
  | subi (rr rx : RegNum) (imm : Imm)
  /-- MUL, RRR, opcode 000100: Signed product of two registers (R104). -/
  | mul (rr rx ry : RegNum)
  /-- MULI, RRI, opcode 000101: Signed product of a register and a sign-extended immediate (R105). -/
  | muli (rr rx : RegNum) (imm : Imm)
  /-- MULU, RRR, opcode 000110: Unsigned product of two registers (R106). -/
  | mulu (rr rx ry : RegNum)
  /-- MULUI, RRI, opcode 000111: Unsigned product of a register and a zero-extended immediate (R107). -/
  | mului (rr rx : RegNum) (imm : Imm)
  /-- DIV, RRR, opcode 001000: Signed quotient of two registers (R122). -/
  | div (rr rx ry : RegNum)
  /-- DIVI, RRI, opcode 001001: Signed quotient of a register and a sign-extended immediate (R123). -/
  | divi (rr rx : RegNum) (imm : Imm)
  /-- DIVU, RRR, opcode 001010: Unsigned quotient of two registers (R124). -/
  | divu (rr rx ry : RegNum)
  /-- DIVUI, RRI, opcode 001011: Unsigned quotient of a register and a zero-extended immediate (R125). -/
  | divui (rr rx : RegNum) (imm : Imm)
  /-- REM, RRR, opcode 001100: Signed remainder of two registers (R126). -/
  | rem (rr rx ry : RegNum)
  /-- REMI, RRI, opcode 001101: Signed remainder of a register and a sign-extended immediate (R127). -/
  | remi (rr rx : RegNum) (imm : Imm)
  /-- REMU, RRR, opcode 001110: Unsigned remainder of two registers (R128). -/
  | remu (rr rx ry : RegNum)
  /-- REMUI, RRI, opcode 001111: Unsigned remainder of a register and a zero-extended immediate (R129). -/
  | remui (rr rx : RegNum) (imm : Imm)
  /-- AND, RRR, opcode 010000: Bitwise AND of two registers (R140). -/
  | and (rr rx ry : RegNum)
  /-- ANDI, RRI, opcode 010001: Bitwise AND of a register and a zero-extended immediate (R141). -/
  | andi (rr rx : RegNum) (imm : Imm)
  /-- OR, RRR, opcode 010010: Bitwise OR of two registers (R142). -/
  | or (rr rx ry : RegNum)
  /-- ORI, RRI, opcode 010011: Bitwise OR of a register and a zero-extended immediate (R143). -/
  | ori (rr rx : RegNum) (imm : Imm)
  /-- XOR, RRR, opcode 010100: Bitwise XOR of two registers (R144). -/
  | xor (rr rx ry : RegNum)
  /-- XORI, RRI, opcode 010101: Bitwise XOR of a register and a zero-extended immediate (R145). -/
  | xori (rr rx : RegNum) (imm : Imm)
  /-- XNOR, RRR, opcode 010110: Bitwise XNOR of two registers (R146). -/
  | xnor (rr rx ry : RegNum)
  /-- XNORI, RRI, opcode 010111: Bitwise XNOR of a register and a zero-extended immediate (R147). -/
  | xnori (rr rx : RegNum) (imm : Imm)
  /-- SLL, RRR, opcode 011000: Shift left logical by a register amount (R161). -/
  | sll (rr rx ry : RegNum)
  /-- SLLI, RRI, opcode 011001: Shift left logical by an immediate amount (R162). -/
  | slli (rr rx : RegNum) (imm : Imm)
  /-- SLR, RRR, opcode 011010: Shift right logical by a register amount (R163). -/
  | slr (rr rx ry : RegNum)
  /-- SLRI, RRI, opcode 011011: Shift right logical by an immediate amount (R164). -/
  | slri (rr rx : RegNum) (imm : Imm)
  /-- SAR, RRR, opcode 011100: Shift right arithmetic by a register amount (R165). -/
  | sar (rr rx ry : RegNum)
  /-- SARI, RRI, opcode 011101: Shift right arithmetic by an immediate amount (R166). -/
  | sari (rr rx : RegNum) (imm : Imm)
  /-- LDHI, RRI, opcode 011111: A constant whose upper half is the immediate (R180). -/
  | ldhi (rr : RegNum) (imm : Imm)
  deriving DecidableEq, Repr

/-- The result register's number: the one register an instruction may write (R23). -/
def Instr.dest : Instr → RegNum
  | .add rr _ _ => rr
  | .addi rr _ _ => rr
  | .sub rr _ _ => rr
  | .subi rr _ _ => rr
  | .mul rr _ _ => rr
  | .muli rr _ _ => rr
  | .mulu rr _ _ => rr
  | .mului rr _ _ => rr
  | .div rr _ _ => rr
  | .divi rr _ _ => rr
  | .divu rr _ _ => rr
  | .divui rr _ _ => rr
  | .rem rr _ _ => rr
  | .remi rr _ _ => rr
  | .remu rr _ _ => rr
  | .remui rr _ _ => rr
  | .and rr _ _ => rr
  | .andi rr _ _ => rr
  | .or rr _ _ => rr
  | .ori rr _ _ => rr
  | .xor rr _ _ => rr
  | .xori rr _ _ => rr
  | .xnor rr _ _ => rr
  | .xnori rr _ _ => rr
  | .sll rr _ _ => rr
  | .slli rr _ _ => rr
  | .slr rr _ _ => rr
  | .slri rr _ _ => rr
  | .sar rr _ _ => rr
  | .sari rr _ _ => rr
  | .ldhi rr _ => rr

/-- The registers an instruction reads: x[rx] and x[ry] in the RRR format, x[rx] in the RRI format, none for LDHI
(R23). -/
def Instr.sources : Instr → List RegNum
  | .add _ rx ry => [rx, ry]
  | .addi _ rx _ => [rx]
  | .sub _ rx ry => [rx, ry]
  | .subi _ rx _ => [rx]
  | .mul _ rx ry => [rx, ry]
  | .muli _ rx _ => [rx]
  | .mulu _ rx ry => [rx, ry]
  | .mului _ rx _ => [rx]
  | .div _ rx ry => [rx, ry]
  | .divi _ rx _ => [rx]
  | .divu _ rx ry => [rx, ry]
  | .divui _ rx _ => [rx]
  | .rem _ rx ry => [rx, ry]
  | .remi _ rx _ => [rx]
  | .remu _ rx ry => [rx, ry]
  | .remui _ rx _ => [rx]
  | .and _ rx ry => [rx, ry]
  | .andi _ rx _ => [rx]
  | .or _ rx ry => [rx, ry]
  | .ori _ rx _ => [rx]
  | .xor _ rx ry => [rx, ry]
  | .xori _ rx _ => [rx]
  | .xnor _ rx ry => [rx, ry]
  | .xnori _ rx _ => [rx]
  | .sll _ rx ry => [rx, ry]
  | .slli _ rx _ => [rx]
  | .slr _ rx ry => [rx, ry]
  | .slri _ rx _ => [rx]
  | .sar _ rx ry => [rx, ry]
  | .sari _ rx _ => [rx]
  | .ldhi _ _ => []

end Sys2Proof
end

