-- ==== Sys2Proof/WellFormed.lean ====
section
/-! DEFINITION. Which instructions have an encoding of their own: the canonical operands (spec R65, R73, R82). -/

namespace Sys2Proof

/-- A shift immediate within the range an assembler accepts and a canonical word holds: bits 15:5 are 0 (R73, R80, R82). -/
def Imm.isShiftAmount (imm : Imm) : Bool := imm.extractLsb' 5 11 == 0#11

/-- Well-formed: the instruction is what its canonical word decodes to (R82). Register numbers and immediates have no
illegal value (R65, R208); the three shift-immediate forms hold 0 in the bits that carry no information (R73). -/
def Instr.wellFormed : Instr → Bool
  | .add _ _ _ => true
  | .addi _ _ _ => true
  | .sub _ _ _ => true
  | .subi _ _ _ => true
  | .mul _ _ _ => true
  | .muli _ _ _ => true
  | .mulu _ _ _ => true
  | .mului _ _ _ => true
  | .div _ _ _ => true
  | .divi _ _ _ => true
  | .divu _ _ _ => true
  | .divui _ _ _ => true
  | .rem _ _ _ => true
  | .remi _ _ _ => true
  | .remu _ _ _ => true
  | .remui _ _ _ => true
  | .and _ _ _ => true
  | .andi _ _ _ => true
  | .or _ _ _ => true
  | .ori _ _ _ => true
  | .xor _ _ _ => true
  | .xori _ _ _ => true
  | .xnor _ _ _ => true
  | .xnori _ _ _ => true
  | .sll _ _ _ => true
  | .slli _ _ imm => imm.isShiftAmount
  | .slr _ _ _ => true
  | .slri _ _ imm => imm.isShiftAmount
  | .sar _ _ _ => true
  | .sari _ _ imm => imm.isShiftAmount
  | .ldhi _ _ => true

end Sys2Proof
end

