-- ==== Sys2Proof/Decode.lean ====
section
/-! DEFINITION. Decoding and encoding of instruction words, the byte order of an instruction in memory, the words as
spec/opcode_table.json numbers them, and the assembler's operand forms (spec R45, R60 to R82). -/

namespace Sys2Proof

/-- What a word decodes to (R70): one of the 31 instructions, IllegalInstruction, or Refused. -/
inductive Decoded where
  /-- One of the 31 instructions with its fields. -/
  | instr (i : Instr)
  /-- Opcode 011110, which no instruction has (R75). -/
  | illegalInstruction
  /-- Opcodes 100000 to 111111, outside the section the spec is written from (R76). -/
  | refused
  deriving DecidableEq, Repr

/-- `op`, bits 31:26 (R61, R62). UNVERIFIED: the places of all fields are the spec's decision D1 (log 13). -/
def opField (w : Word) : Opcode := w.extractLsb' 26 6

/-- `rx`, bits 25:21 (R61, R62). -/
def rxField (w : Word) : RegNum := w.extractLsb' 21 5

/-- `ry` of the RRR format, bits 20:16 (R61). -/
def ryField (w : Word) : RegNum := w.extractLsb' 16 5

/-- `rr` of the RRR format, bits 15:11 (R61). -/
def rrFieldRRR (w : Word) : RegNum := w.extractLsb' 11 5

/-- `rr` of the RRI format, bits 20:16 (R62). -/
def rrFieldRRI (w : Word) : RegNum := w.extractLsb' 16 5

/-- `imm` of the RRI format, bits 15:0 (R62, R64). -/
def immField (w : Word) : Imm := w.extractLsb' 0 16

/-- `imm` of SLLI, SLRI and SARI: bits 4:0, bits 15:5 being ignored (R73). -/
def shiftImmField (w : Word) : Imm := (w.extractLsb' 0 5).zeroExtend 16

/-- The decoder, total on words: the opcode alone selects the instruction, unused bits are ignored, opcode 011110 is
illegal and opcodes 1xxxxx are refused (R70 to R76; log 11, log 13, log 14). -/
def decode (w : Word) : Decoded :=
  match opField w with
  | 0x00#6 => .instr (.add (rrFieldRRR w) (rxField w) (ryField w))
  | 0x01#6 => .instr (.addi (rrFieldRRI w) (rxField w) (immField w))
  | 0x02#6 => .instr (.sub (rrFieldRRR w) (rxField w) (ryField w))
  | 0x03#6 => .instr (.subi (rrFieldRRI w) (rxField w) (immField w))
  | 0x04#6 => .instr (.mul (rrFieldRRR w) (rxField w) (ryField w))
  | 0x05#6 => .instr (.muli (rrFieldRRI w) (rxField w) (immField w))
  | 0x06#6 => .instr (.mulu (rrFieldRRR w) (rxField w) (ryField w))
  | 0x07#6 => .instr (.mului (rrFieldRRI w) (rxField w) (immField w))
  | 0x08#6 => .instr (.div (rrFieldRRR w) (rxField w) (ryField w))
  | 0x09#6 => .instr (.divi (rrFieldRRI w) (rxField w) (immField w))
  | 0x0A#6 => .instr (.divu (rrFieldRRR w) (rxField w) (ryField w))
  | 0x0B#6 => .instr (.divui (rrFieldRRI w) (rxField w) (immField w))
  | 0x0C#6 => .instr (.rem (rrFieldRRR w) (rxField w) (ryField w))
  | 0x0D#6 => .instr (.remi (rrFieldRRI w) (rxField w) (immField w))
  | 0x0E#6 => .instr (.remu (rrFieldRRR w) (rxField w) (ryField w))
  | 0x0F#6 => .instr (.remui (rrFieldRRI w) (rxField w) (immField w))
  | 0x10#6 => .instr (.and (rrFieldRRR w) (rxField w) (ryField w))
  | 0x11#6 => .instr (.andi (rrFieldRRI w) (rxField w) (immField w))
  | 0x12#6 => .instr (.or (rrFieldRRR w) (rxField w) (ryField w))
  | 0x13#6 => .instr (.ori (rrFieldRRI w) (rxField w) (immField w))
  | 0x14#6 => .instr (.xor (rrFieldRRR w) (rxField w) (ryField w))
  | 0x15#6 => .instr (.xori (rrFieldRRI w) (rxField w) (immField w))
  | 0x16#6 => .instr (.xnor (rrFieldRRR w) (rxField w) (ryField w))
  | 0x17#6 => .instr (.xnori (rrFieldRRI w) (rxField w) (immField w))
  | 0x18#6 => .instr (.sll (rrFieldRRR w) (rxField w) (ryField w))
  | 0x19#6 => .instr (.slli (rrFieldRRI w) (rxField w) (shiftImmField w))
  | 0x1A#6 => .instr (.slr (rrFieldRRR w) (rxField w) (ryField w))
  | 0x1B#6 => .instr (.slri (rrFieldRRI w) (rxField w) (shiftImmField w))
  | 0x1C#6 => .instr (.sar (rrFieldRRR w) (rxField w) (ryField w))
  | 0x1D#6 => .instr (.sari (rrFieldRRI w) (rxField w) (shiftImmField w))
  | 0x1E#6 => .illegalInstruction
  | 0x1F#6 => .instr (.ldhi (rrFieldRRI w) (immField w))
  | _ => .refused

/-- A word from its four bytes, the first at the lowest address: big-endian, so that the first byte holds the opcode
(R45; UNVERIFIED, log 15). -/
def wordOfBytes (b0 b1 b2 b3 : Byte) : Word := b0 ++ b1 ++ b2 ++ b3

/-- Byte `k` of a word in address order: `k = 0` lies at the lowest address and holds bits 31:24 (R45). -/
def byteOfWord (w : Word) (k : Nat) : Byte := w.extractLsb' (24 - 8 * k) 8

/-- Decoding from a byte string, total: the first four bytes make the word and the rest is handed back; a string
shorter than one instruction holds none (R45, R60). -/
def decodeBytes : List Byte → Option (Decoded × List Byte)
  | b0 :: b1 :: b2 :: b3 :: rest => some (decode (wordOfBytes b0 b1 b2 b3), rest)
  | _ => none

/-- The instruction whose bits are `w`, numbered as spec/opcode_table.json numbers them (bit 0 least significant),
laid out as four bytes in memory order and given to the decoder. Bits above `nbits` are 0. -/
def decodeTableWord (nbits w : Nat) : Option Instr :=
  let v : Word := BitVec.ofNat 32 (w % 2 ^ nbits)
  match decodeBytes ((List.range 4).map (byteOfWord v)) with
  | some (.instr i, _) => some i
  | _ => none

/-- The canonical RRR word: bits 10:0 are 0 (R61, R71, R82). -/
def encodeRRR (op : Opcode) (rr rx ry : RegNum) : Word := op ++ rx ++ ry ++ rr ++ 0#11

/-- The canonical RRI word (R62, R82). -/
def encodeRRI (op : Opcode) (rr rx : RegNum) (imm : Imm) : Word := op ++ rx ++ rr ++ imm

/-- The immediate field a shift instruction is encoded with: bits 15:5 are 0 (R73, R82). -/
def canonicalShiftImm (imm : Imm) : Imm := (imm.extractLsb' 0 5).zeroExtend 16

/-- The encoder: the canonical word of an instruction (R82). -/
def encode : Instr → Word
  | .add rr rx ry => encodeRRR 0x00#6 rr rx ry
  | .addi rr rx imm => encodeRRI 0x01#6 rr rx imm
  | .sub rr rx ry => encodeRRR 0x02#6 rr rx ry
  | .subi rr rx imm => encodeRRI 0x03#6 rr rx imm
  | .mul rr rx ry => encodeRRR 0x04#6 rr rx ry
  | .muli rr rx imm => encodeRRI 0x05#6 rr rx imm
  | .mulu rr rx ry => encodeRRR 0x06#6 rr rx ry
  | .mului rr rx imm => encodeRRI 0x07#6 rr rx imm
  | .div rr rx ry => encodeRRR 0x08#6 rr rx ry
  | .divi rr rx imm => encodeRRI 0x09#6 rr rx imm
  | .divu rr rx ry => encodeRRR 0x0A#6 rr rx ry
  | .divui rr rx imm => encodeRRI 0x0B#6 rr rx imm
  | .rem rr rx ry => encodeRRR 0x0C#6 rr rx ry
  | .remi rr rx imm => encodeRRI 0x0D#6 rr rx imm
  | .remu rr rx ry => encodeRRR 0x0E#6 rr rx ry
  | .remui rr rx imm => encodeRRI 0x0F#6 rr rx imm
  | .and rr rx ry => encodeRRR 0x10#6 rr rx ry
  | .andi rr rx imm => encodeRRI 0x11#6 rr rx imm
  | .or rr rx ry => encodeRRR 0x12#6 rr rx ry
  | .ori rr rx imm => encodeRRI 0x13#6 rr rx imm
  | .xor rr rx ry => encodeRRR 0x14#6 rr rx ry
  | .xori rr rx imm => encodeRRI 0x15#6 rr rx imm
  | .xnor rr rx ry => encodeRRR 0x16#6 rr rx ry
  | .xnori rr rx imm => encodeRRI 0x17#6 rr rx imm
  | .sll rr rx ry => encodeRRR 0x18#6 rr rx ry
  | .slli rr rx imm => encodeRRI 0x19#6 rr rx (canonicalShiftImm imm)
  | .slr rr rx ry => encodeRRR 0x1A#6 rr rx ry
  | .slri rr rx imm => encodeRRI 0x1B#6 rr rx (canonicalShiftImm imm)
  | .sar rr rx ry => encodeRRR 0x1C#6 rr rx ry
  | .sari rr rx imm => encodeRRI 0x1D#6 rr rx (canonicalShiftImm imm)
  | .ldhi rr imm => encodeRRI 0x1F#6 rr 0#5 imm

/-- An operand as the assembler syntax writes it: a register `$n`, or a number (R80). -/
inductive AsmOperand where
  /-- `$n`. -/
  | reg (n : RegNum)
  /-- A decimal or hexadecimal number. -/
  | num (v : Int)
  deriving DecidableEq, Repr

/-- An immediate of a sign-extending form: -32768 to 32767, anything else rejected, not wrapped (R80). -/
def asmSigned (v : Int) : Option Imm :=
  if -32768 ≤ v ∧ v ≤ 32767 then some (BitVec.ofInt 16 v) else none

/-- An immediate of a zero-extending form or of LDHI: 0 to 65535 (R80). -/
def asmUnsigned (v : Int) : Option Imm :=
  if 0 ≤ v ∧ v ≤ 65535 then some (BitVec.ofInt 16 v) else none

/-- An immediate of a shift form: 0 to 31 (R80). -/
def asmShift (v : Int) : Option Imm :=
  if 0 ≤ v ∧ v ≤ 31 then some (BitVec.ofInt 16 v) else none

/-- A line `mnemonic $rr, $rx, $ry` (R80). -/
def assembleRRR (m : String) (rr rx ry : RegNum) : Option Instr :=
  match m with
  | "add" => some (.add rr rx ry)
  | "sub" => some (.sub rr rx ry)
  | "mul" => some (.mul rr rx ry)
  | "mulu" => some (.mulu rr rx ry)
  | "div" => some (.div rr rx ry)
  | "divu" => some (.divu rr rx ry)
  | "rem" => some (.rem rr rx ry)
  | "remu" => some (.remu rr rx ry)
  | "and" => some (.and rr rx ry)
  | "or" => some (.or rr rx ry)
  | "xor" => some (.xor rr rx ry)
  | "xnor" => some (.xnor rr rx ry)
  | "sll" => some (.sll rr rx ry)
  | "slr" => some (.slr rr rx ry)
  | "sar" => some (.sar rr rx ry)
  | _ => none

/-- A line `mnemonic $rr, $rx, imm` (R80). -/
def assembleRRI (m : String) (rr rx : RegNum) (v : Int) : Option Instr :=
  match m with
  | "addi" => (Instr.addi rr rx) <$> asmSigned v
  | "subi" => (Instr.subi rr rx) <$> asmSigned v
  | "muli" => (Instr.muli rr rx) <$> asmSigned v
  | "mului" => (Instr.mului rr rx) <$> asmUnsigned v
  | "divi" => (Instr.divi rr rx) <$> asmSigned v
  | "divui" => (Instr.divui rr rx) <$> asmUnsigned v
  | "remi" => (Instr.remi rr rx) <$> asmSigned v
  | "remui" => (Instr.remui rr rx) <$> asmUnsigned v
  | "andi" => (Instr.andi rr rx) <$> asmUnsigned v
  | "ori" => (Instr.ori rr rx) <$> asmUnsigned v
  | "xori" => (Instr.xori rr rx) <$> asmUnsigned v
  | "xnori" => (Instr.xnori rr rx) <$> asmUnsigned v
  | "slli" => (Instr.slli rr rx) <$> asmShift v
  | "slri" => (Instr.slri rr rx) <$> asmShift v
  | "sari" => (Instr.sari rr rx) <$> asmShift v
  | _ => none

/-- The assembler on one line already cut into its mnemonic and operands: destination first; LDHI has two operands; a
wrong mnemonic, a wrong operand list or an immediate out of range is rejected (R80; log 20). -/
def assemble (m : String) (operands : List AsmOperand) : Option Instr :=
  match operands with
  | [.reg rr, .reg rx, .reg ry] => assembleRRR m rr rx ry
  | [.reg rr, .reg rx, .num v] => assembleRRI m rr rx v
  | [.reg rr, .num v] => if m = "ldhi" then Instr.ldhi rr <$> asmUnsigned v else none
  | _ => none

/-- The line that writes an instruction: its lower-case mnemonic and its operands, an immediate as a number of the
range its form accepts (R80). -/
def listing : Instr → String × List AsmOperand
  | .add rr rx ry => ("add", [.reg rr, .reg rx, .reg ry])
  | .addi rr rx imm => ("addi", [.reg rr, .reg rx, .num imm.toInt])
  | .sub rr rx ry => ("sub", [.reg rr, .reg rx, .reg ry])
  | .subi rr rx imm => ("subi", [.reg rr, .reg rx, .num imm.toInt])
  | .mul rr rx ry => ("mul", [.reg rr, .reg rx, .reg ry])
  | .muli rr rx imm => ("muli", [.reg rr, .reg rx, .num imm.toInt])
  | .mulu rr rx ry => ("mulu", [.reg rr, .reg rx, .reg ry])
  | .mului rr rx imm => ("mului", [.reg rr, .reg rx, .num imm.toNat])
  | .div rr rx ry => ("div", [.reg rr, .reg rx, .reg ry])
  | .divi rr rx imm => ("divi", [.reg rr, .reg rx, .num imm.toInt])
  | .divu rr rx ry => ("divu", [.reg rr, .reg rx, .reg ry])
  | .divui rr rx imm => ("divui", [.reg rr, .reg rx, .num imm.toNat])
  | .rem rr rx ry => ("rem", [.reg rr, .reg rx, .reg ry])
  | .remi rr rx imm => ("remi", [.reg rr, .reg rx, .num imm.toInt])
  | .remu rr rx ry => ("remu", [.reg rr, .reg rx, .reg ry])
  | .remui rr rx imm => ("remui", [.reg rr, .reg rx, .num imm.toNat])
  | .and rr rx ry => ("and", [.reg rr, .reg rx, .reg ry])
  | .andi rr rx imm => ("andi", [.reg rr, .reg rx, .num imm.toNat])
  | .or rr rx ry => ("or", [.reg rr, .reg rx, .reg ry])
  | .ori rr rx imm => ("ori", [.reg rr, .reg rx, .num imm.toNat])
  | .xor rr rx ry => ("xor", [.reg rr, .reg rx, .reg ry])
  | .xori rr rx imm => ("xori", [.reg rr, .reg rx, .num imm.toNat])
  | .xnor rr rx ry => ("xnor", [.reg rr, .reg rx, .reg ry])
  | .xnori rr rx imm => ("xnori", [.reg rr, .reg rx, .num imm.toNat])
  | .sll rr rx ry => ("sll", [.reg rr, .reg rx, .reg ry])
  | .slli rr rx imm => ("slli", [.reg rr, .reg rx, .num imm.toNat])
  | .slr rr rx ry => ("slr", [.reg rr, .reg rx, .reg ry])
  | .slri rr rx imm => ("slri", [.reg rr, .reg rx, .num imm.toNat])
  | .sar rr rx ry => ("sar", [.reg rr, .reg rx, .reg ry])
  | .sari rr rx imm => ("sari", [.reg rr, .reg rx, .num imm.toNat])
  | .ldhi rr imm => ("ldhi", [.reg rr, .num imm.toNat])

end Sys2Proof
end

