-- ==== Sys2Proof/Machine/State.lean ====
section
/-! DEFINITION. The state of the machine, its launch and its reset, and the reasons a step does not give a next state
(spec R20 to R33, R41, R203, R208, R230, R238). -/

namespace Sys2Proof.Machine

/-- PROGRAM as bytes: (address, byte) pairs, addresses strictly rising. An unlisted address has no value (R41, R45;
DESIGN CHOICE, log 4). -/
abbrev Memory := List Host.Cell

/-- The faults of the model. Both are terminal (R203), write no register and leave the pc (R201, R207). -/
inductive Fault where
  /-- The Division by Zero Fault, raised by the eight divide and remainder instructions when their divisor is 0. It
  carries the pc of the faulting instruction (R200, R201). Safe: the chip enters a handler the spec does not describe, the
  model stops (R203). -/
  | divisionByZero (pc : Word)
  /-- IllegalInstruction, raised by a step that fetches a word with opcode 011110. It carries the pc and the word (R75,
  R207). Safe: the model stops. -/
  | illegalInstruction (pc word : Word)
  deriving DecidableEq, Repr

/-- The reasons for which the machine has no step, or none the spec gives a meaning. -/
inductive Refusal where
  /-- exec has no meaning for this instruction yet, raised by exec's arms alone. Safe: the model stops. -/
  | notModelled (mnemonic : String)
  /-- Refused: the fetched word has an opcode 1xxxxx, outside the section the spec is written from. Raised by a step (R76).
  Safe: the model stops where the chip may go on. -/
  | outsideSection (pc word : Word)
  /-- Stuck: PROGRAM has no word at the pc. Raised by a step (R43; log 6). Safe: the model stops where the chip may go on. -/
  | noWordAt (pc : Word)
  /-- The run is over: the pc is END, so there is no step. Raised by a step (R27, R238). Safe: END bounds the claim. -/
  | runOver
  /-- The pc or END is not a multiple of 4: such a state belongs to no launch. Raised by a step (R44, R232; log 8).
  Safe: the model stops. -/
  | misalignedLaunch
  deriving DecidableEq, Repr

/-- The state of the machine: all of the table of R33, and END. -/
structure State where
  /-- x[1] to x[31], in that order (R20). x[0] has no cell: it is hard-wired to 0 in the one operation that reads and the
  one that writes a register (R22). -/
  gpr : Vector Word 31
  /-- The byte address of the instruction being executed (R25). -/
  pc : Word
  /-- PROGRAM, which no step changes (R41). -/
  program : Memory
  /-- END, the address at which the run is over, which no step changes (R238). -/
  endAddr : Word
  /-- The fault that ended the run, or none (R27, R33, R203). -/
  faultRecord : Option Fault
  deriving DecidableEq, Repr

/-- The outcome of a step or of an instruction. -/
abbrev Result := Host.Outcome State Fault Refusal

/-- The launch state, for every choice of the four arguments the spec leaves open (R30, R33, R239). -/
def State.launch (program : Memory) (entry endAddr : Word) (initRegs : Vector Word 31) : State where
  gpr := initRegs
  pc := entry
  program := program
  endAddr := endAddr
  faultRecord := none

/-- The launch the model takes as its reset: nothing in PROGRAM, and the values Config names for ENTRY, END and
INIT_REGS (R230, R33; log 1, log 2, log 3). -/
def State.reset : State :=
  State.launch [] Config.entry Config.endAddr Config.initRegs

end Sys2Proof.Machine
end

