-- ==== Sys2Proof/Machine/Ops.lean ====
section
/-! DEFINITION. The named operations over registers, the pc, PROGRAM and faults (spec R11, R12, R13, R22, R26, R41 to
R45, R201 to R207). -/

namespace Sys2Proof.Machine

/-- `x[n]`: x[0] always yields 0 (R11, R22; UNVERIFIED, log 10). -/
def State.readReg (s : State) (n : RegNum) : Word :=
  if h : n = 0#5 then 0#32
  else s.gpr[n.toNat - 1]'(by
    have := n.isLt
    have : n.toNat ≠ 0 := fun e => h (BitVec.eq_of_toNat_eq e)
    omega)

/-- `x[n] <- v`: a write to x[0] is discarded (R11, R22). -/
def State.writeReg (s : State) (n : RegNum) (v : Word) : State :=
  if h : n = 0#5 then s
  else { s with gpr := s.gpr.set (n.toNat - 1) v (by
    have := n.isLt
    have : n.toNat ≠ 0 := fun e => h (BitVec.eq_of_toNat_eq e)
    omega) }

/-- The pc of the next instruction: the pc advances by 4, modulo 2^32 (R26; log 22). -/
def nextPc (pc : Word) : Word := pc + 4#32

/-- `pc <- trunc32(unsigned(pc) + 4)` (R12, R26). -/
def State.advance (s : State) : State := { s with pc := nextPc s.pc }

/-- How an instruction completes: its one register write, then the pc advance (R12, R15, R23). -/
def State.complete (s : State) (rr : RegNum) (v : Word) : Result :=
  .next (s.writeReg rr v).advance

/-- Raising a fault, the one operation that does: no register is written, the pc is not advanced, and the outcome is the
fault carrying the pc of the instruction (R13, R201, R207). The spec describes no entry into a handler (R203, R205), and
no return from one (R206; UNVERIFIED, log 7). -/
def State.raise (s : State) (fault : Word → Fault) : Result :=
  .fault (fault s.pc)

/-- A divide or remainder: the test of the divisor comes first, and a zero divisor suppresses the write (R120). -/
def State.divide (s : State) (divisorIsZero : Bool) (rr : RegNum) (v : Word) : Result :=
  if divisorIsZero then s.raise .divisionByZero else s.complete rr v

/-- The state of a run that a fault has ended: the state before the instruction, with the fault recorded (R201, R203). -/
def State.recordFault (s : State) (f : Fault) : State := { s with faultRecord := some f }

/-- A multiple of 4 (R25, R41, R44, R238). -/
abbrev Aligned (a : Word) : Prop := a.toNat % 4 = 0

/-- The word address an address lies in. -/
def alignDown (a : Word) : Word := BitVec.ofNat 32 (a.toNat / 4 * 4)

/-- The byte at an address, or none where PROGRAM lists none (R41; log 4). -/
def Memory.readByte : Memory → Nat → Option Byte
  | [], _ => none
  | (k, v) :: m, a => if k = a then some v else Memory.readByte m a

/-- The memory with one byte set, its addresses still strictly rising. -/
def Memory.writeByte : Memory → Nat → Byte → Memory
  | [], a, b => [(a, b)]
  | (k, v) :: m, a, b =>
    if a < k then (a, b) :: (k, v) :: m
    else if a = k then (a, b) :: m
    else (k, v) :: Memory.writeByte m a b

/-- The canonical form: addresses strictly rising and inside the 32-bit address space (R40). No entry equals what an
unlisted address reads as, since an unlisted address has no value (log 4). -/
abbrev Memory.wf (m : Memory) : Prop :=
  m.Pairwise (fun c d => c.1 < d.1) ∧ ∀ c ∈ m, c.1 < 2 ^ 32

/-- The memory is a map from word addresses to whole words: where one byte of a word is listed, all four are (R41). -/
abbrev Memory.wordComplete (m : Memory) : Prop :=
  ∀ c ∈ m, ∀ k < 4, (m.readByte (c.1 / 4 * 4 + k)).isSome = true

/-- PROGRAM(a) from its four bytes, big-endian; none where a byte is missing or `a` is not a multiple of 4 (R41, R42,
R45; log 5). -/
def Memory.word (m : Memory) (a : Word) : Option Word :=
  if Aligned a then
    match m.readByte a.toNat, m.readByte (a.toNat + 1), m.readByte (a.toNat + 2), m.readByte (a.toNat + 3) with
    | some b0, some b1, some b2, some b3 => some (wordOfBytes b0 b1 b2 b3)
    | _, _, _, _ => none
  else none

/-- The memory with the word `w` placed big-endian at the word address of `a`: what a loader does before a run (R45,
R239). No instruction writes memory (R41). -/
def Memory.placeWord (m : Memory) (a w : Word) : Memory :=
  let base := (alignDown a).toNat
  (((m.writeByte base (byteOfWord w 0)).writeByte (base + 1) (byteOfWord w 1)).writeByte
    (base + 2) (byteOfWord w 2)).writeByte (base + 3) (byteOfWord w 3)

/-- Launching on one word: `w` is placed at the pc, and where the fetch needs it the pc is taken down to its word
address, END is moved past the word and the fault record is cleared (R232, R238, R239; log 12). -/
def State.placeNext (s : State) (w : Word) : State :=
  let pc := alignDown s.pc
  { s with
    pc := pc
    program := s.program.placeWord pc w
    endAddr := if alignDown s.endAddr = pc then nextPc pc else alignDown s.endAddr
    faultRecord := none }

end Sys2Proof.Machine
end

