-- ==== Sys2Proof/Machine/AddSubMul.lean ====
section
/-! DEFINITION. The meanings of the add, subtract and multiply instructions (spec R100 to R107): each completes on every
operand, with the exact result truncated to 32 bits (R108). -/

namespace Sys2Proof.Machine

/-- ADD: sum of two registers (R100). -/
def execAdd (rr rx ry : RegNum) (s : State) : Result :=
  s.complete rr (trunc32 ((unsigned (s.readReg rx) : Int) + unsigned (s.readReg ry)))

/-- ADDI: sum of a register and a sign-extended immediate (R101). -/
def execAddi (rr rx : RegNum) (imm : Imm) (s : State) : Result :=
  s.complete rr (trunc32 ((unsigned (s.readReg rx) : Int) + unsigned (sext32 imm)))

/-- SUB: difference of two registers, x[rx] the minuend (R102). -/
def execSub (rr rx ry : RegNum) (s : State) : Result :=
  s.complete rr (trunc32 ((unsigned (s.readReg rx) : Int) - unsigned (s.readReg ry)))

/-- SUBI: difference of a register and a sign-extended immediate (R103). -/
def execSubi (rr rx : RegNum) (imm : Imm) (s : State) : Result :=
  s.complete rr (trunc32 ((unsigned (s.readReg rx) : Int) - unsigned (sext32 imm)))

/-- MUL: low 32 bits of the signed product of two registers (R104). -/
def execMul (rr rx ry : RegNum) (s : State) : Result :=
  s.complete rr (trunc32 (signed (s.readReg rx) * signed (s.readReg ry)))

/-- MULI: low 32 bits of the signed product of a register and a sign-extended immediate (R105). -/
def execMuli (rr rx : RegNum) (imm : Imm) (s : State) : Result :=
  s.complete rr (trunc32 (signed (s.readReg rx) * signed (sext32 imm)))

/-- MULU: low 32 bits of the unsigned product of two registers (R106). -/
def execMulu (rr rx ry : RegNum) (s : State) : Result :=
  s.complete rr (trunc32 ((unsigned (s.readReg rx) : Int) * unsigned (s.readReg ry)))

/-- MULUI: low 32 bits of the unsigned product of a register and a zero-extended immediate (R107). -/
def execMului (rr rx : RegNum) (imm : Imm) (s : State) : Result :=
  s.complete rr (trunc32 ((unsigned (s.readReg rx) : Int) * unsigned (zext32 imm)))

end Sys2Proof.Machine
end

