-- ==== Sys2Proof/Machine/DivRem.lean ====
section
/-! DEFINITION. The meanings of the divide and remainder instructions (spec R120 to R131): each tests its divisor first
and faults on 0. -/

namespace Sys2Proof.Machine

/-- DIV: signed quotient of two registers (R122). -/
def execDiv (rr rx ry : RegNum) (s : State) : Result :=
  s.divide (s.readReg ry == 0#32) rr (trunc32 (sdiv (signed (s.readReg rx)) (signed (s.readReg ry))))

/-- DIVI: signed quotient of a register by a sign-extended immediate (R123; log 21). -/
def execDivi (rr rx : RegNum) (imm : Imm) (s : State) : Result :=
  s.divide (imm == 0#16) rr (trunc32 (sdiv (signed (s.readReg rx)) (signed (sext32 imm))))

/-- DIVU: unsigned quotient of two registers (R124). -/
def execDivu (rr rx ry : RegNum) (s : State) : Result :=
  s.divide (s.readReg ry == 0#32) rr (trunc32 (udiv (unsigned (s.readReg rx)) (unsigned (s.readReg ry))))

/-- DIVUI: unsigned quotient of a register by a zero-extended immediate (R125). -/
def execDivui (rr rx : RegNum) (imm : Imm) (s : State) : Result :=
  s.divide (imm == 0#16) rr (trunc32 (udiv (unsigned (s.readReg rx)) (unsigned (zext32 imm))))

/-- REM: signed remainder of two registers (R126). -/
def execRem (rr rx ry : RegNum) (s : State) : Result :=
  s.divide (s.readReg ry == 0#32) rr (trunc32 (srem (signed (s.readReg rx)) (signed (s.readReg ry))))

/-- REMI: signed remainder of a register by a sign-extended immediate (R127). -/
def execRemi (rr rx : RegNum) (imm : Imm) (s : State) : Result :=
  s.divide (imm == 0#16) rr (trunc32 (srem (signed (s.readReg rx)) (signed (sext32 imm))))

/-- REMU: unsigned remainder of two registers (R128). -/
def execRemu (rr rx ry : RegNum) (s : State) : Result :=
  s.divide (s.readReg ry == 0#32) rr (trunc32 (urem (unsigned (s.readReg rx)) (unsigned (s.readReg ry))))

/-- REMUI: unsigned remainder of a register by a zero-extended immediate (R129). -/
def execRemui (rr rx : RegNum) (imm : Imm) (s : State) : Result :=
  s.divide (imm == 0#16) rr (trunc32 (urem (unsigned (s.readReg rx)) (unsigned (zext32 imm))))

end Sys2Proof.Machine
end

