-- ==== Sys2Proof/Machine/Ldhi.lean ====
section
/-! DEFINITION. The meaning of LDHI (spec R180). -/

namespace Sys2Proof.Machine

/-- LDHI: the immediate placed over 16 zero bits (R180). -/
def execLdhi (rr : RegNum) (imm : Imm) (s : State) : Result :=
  s.complete rr (placeHigh imm)

end Sys2Proof.Machine
end

