-- ==== Sys2Proof/Machine/Logic.lean ====
section
/-! DEFINITION. The meanings of the bitwise instructions (spec R140 to R148): each completes on every operand, and
every immediate is zero-extended. -/

namespace Sys2Proof.Machine

/-- AND: bitwise AND of two registers (R140). -/
def execAnd (rr rx ry : RegNum) (s : State) : Result :=
  s.complete rr (s.readReg rx &&& s.readReg ry)

/-- ANDI: bitwise AND of a register and a zero-extended immediate (R141). -/
def execAndi (rr rx : RegNum) (imm : Imm) (s : State) : Result :=
  s.complete rr (s.readReg rx &&& zext32 imm)

/-- OR: bitwise OR of two registers (R142). -/
def execOr (rr rx ry : RegNum) (s : State) : Result :=
  s.complete rr (s.readReg rx ||| s.readReg ry)

/-- ORI: bitwise OR of a register and a zero-extended immediate (R143). -/
def execOri (rr rx : RegNum) (imm : Imm) (s : State) : Result :=
  s.complete rr (s.readReg rx ||| zext32 imm)

/-- XOR: bitwise XOR of two registers (R144). -/
def execXor (rr rx ry : RegNum) (s : State) : Result :=
  s.complete rr (s.readReg rx ^^^ s.readReg ry)

/-- XORI: bitwise XOR of a register and a zero-extended immediate (R145). -/
def execXori (rr rx : RegNum) (imm : Imm) (s : State) : Result :=
  s.complete rr (s.readReg rx ^^^ zext32 imm)

/-- XNOR: bitwise XNOR of two registers (R146). -/
def execXnor (rr rx ry : RegNum) (s : State) : Result :=
  s.complete rr (xnorWord (s.readReg rx) (s.readReg ry))

/-- XNORI: bitwise XNOR of a register and a zero-extended immediate (R147). -/
def execXnori (rr rx : RegNum) (imm : Imm) (s : State) : Result :=
  s.complete rr (xnorWord (s.readReg rx) (zext32 imm))

end Sys2Proof.Machine
end

