-- ==== Sys2Proof/Machine/Shift.lean ====
section
/-! DEFINITION. The meanings of the shift instructions (spec R160 to R167): the amount is always the 5
least significant bits of the second operand. -/

namespace Sys2Proof.Machine

/-- SLL: shift left logical by a register amount (R161). -/
def execSll (rr rx ry : RegNum) (s : State) : Result :=
  s.complete rr (shiftLeft (s.readReg rx) (shiftOfReg (s.readReg ry)))

/-- SLLI: shift left logical by an immediate amount (R162). -/
def execSlli (rr rx : RegNum) (imm : Imm) (s : State) : Result :=
  s.complete rr (shiftLeft (s.readReg rx) (shiftOfImm imm))

/-- SLR: shift right logical by a register amount (R163). -/
def execSlr (rr rx ry : RegNum) (s : State) : Result :=
  s.complete rr (shiftRightLogical (s.readReg rx) (shiftOfReg (s.readReg ry)))

/-- SLRI: shift right logical by an immediate amount (R164). -/
def execSlri (rr rx : RegNum) (imm : Imm) (s : State) : Result :=
  s.complete rr (shiftRightLogical (s.readReg rx) (shiftOfImm imm))

/-- SAR: shift right arithmetic by a register amount (R165). -/
def execSar (rr rx ry : RegNum) (s : State) : Result :=
  s.complete rr (shiftRightArith (s.readReg rx) (shiftOfReg (s.readReg ry)))

/-- SARI: shift right arithmetic by an immediate amount (R166). -/
def execSari (rr rx : RegNum) (imm : Imm) (s : State) : Result :=
  s.complete rr (shiftRightArith (s.readReg rx) (shiftOfImm imm))

end Sys2Proof.Machine
end

