-- ==== Sys2Proof/Machine/Dispatch.lean ====
section
/-! DEFINITION. exec: one arm per instruction, each one direct call of its meaning (spec R27 (4)). -/

namespace Sys2Proof.Machine

def exec (i : Instr) (s : State) : Host.Outcome State Fault Refusal :=
  match i with
  | .add rr rx ry => Sys2Proof.Machine.execAdd rr rx ry s
  | .addi rr rx imm => Sys2Proof.Machine.execAddi rr rx imm s
  | .sub rr rx ry => Sys2Proof.Machine.execSub rr rx ry s
  | .subi rr rx imm => Sys2Proof.Machine.execSubi rr rx imm s
  | .mul rr rx ry => Sys2Proof.Machine.execMul rr rx ry s
  | .muli rr rx imm => Sys2Proof.Machine.execMuli rr rx imm s
  | .mulu rr rx ry => Sys2Proof.Machine.execMulu rr rx ry s
  | .mului rr rx imm => Sys2Proof.Machine.execMului rr rx imm s
  | .div rr rx ry => Sys2Proof.Machine.execDiv rr rx ry s
  | .divi rr rx imm => Sys2Proof.Machine.execDivi rr rx imm s
  | .divu rr rx ry => Sys2Proof.Machine.execDivu rr rx ry s
  | .divui rr rx imm => Sys2Proof.Machine.execDivui rr rx imm s
  | .rem rr rx ry => Sys2Proof.Machine.execRem rr rx ry s
  | .remi rr rx imm => Sys2Proof.Machine.execRemi rr rx imm s
  | .remu rr rx ry => Sys2Proof.Machine.execRemu rr rx ry s
  | .remui rr rx imm => Sys2Proof.Machine.execRemui rr rx imm s
  | .and rr rx ry => Sys2Proof.Machine.execAnd rr rx ry s
  | .andi rr rx imm => Sys2Proof.Machine.execAndi rr rx imm s
  | .or rr rx ry => Sys2Proof.Machine.execOr rr rx ry s
  | .ori rr rx imm => Sys2Proof.Machine.execOri rr rx imm s
  | .xor rr rx ry => Sys2Proof.Machine.execXor rr rx ry s
  | .xori rr rx imm => Sys2Proof.Machine.execXori rr rx imm s
  | .xnor rr rx ry => Sys2Proof.Machine.execXnor rr rx ry s
  | .xnori rr rx imm => Sys2Proof.Machine.execXnori rr rx imm s
  | .sll rr rx ry => Sys2Proof.Machine.execSll rr rx ry s
  | .slli rr rx imm => Sys2Proof.Machine.execSlli rr rx imm s
  | .slr rr rx ry => Sys2Proof.Machine.execSlr rr rx ry s
  | .slri rr rx imm => Sys2Proof.Machine.execSlri rr rx imm s
  | .sar rr rx ry => Sys2Proof.Machine.execSar rr rx ry s
  | .sari rr rx imm => Sys2Proof.Machine.execSari rr rx imm s
  | .ldhi rr imm => Sys2Proof.Machine.execLdhi rr imm s

end Sys2Proof.Machine
end

