-- ==== Sys2Proof/Machine/Fetch.lean ====
section
/-! DEFINITION. Everything a step does before an instruction executes: the checks in their order, the fetch and the
decoding (spec R27, R42 to R44, R203, R209). -/

namespace Sys2Proof.Machine

/-- What a step finds before it executes: an instruction to run, or the outcome the step ends with. -/
inductive Front where
  /-- The decoded instruction, to be executed. -/
  | run (i : Instr)
  /-- The step ends here. -/
  | stop (o : Result)

/-- Decoding of the fetched word: an instruction runs, opcode 011110 faults with the pc and the word, opcode 1xxxxx is
refused (R70, R75, R76, R207). -/
def State.decoded (s : State) (w : Word) : Front :=
  match decode w with
  | .instr i => .run i
  | .illegalInstruction => .stop (s.raise (Fault.illegalInstruction · w))
  | .refused => .stop (.refused (.outsideSection s.pc w))

/-- The order of the checks (R27, R209): a recorded fault has no further step (R203), a misaligned launch is refused
(R44; log 8), at END the run is over, without a word at the pc the core is stuck (R43), and the word decodes. -/
def State.front (s : State) : Front :=
  match s.faultRecord with
  | some f => .stop (.fault f)
  | none =>
    if ¬ (Aligned s.pc ∧ Aligned s.endAddr) then .stop (.refused .misalignedLaunch)
    else if s.pc = s.endAddr then .stop (.refused .runOver)
    else match s.program.word s.pc with
      | none => .stop (.refused (.noWordAt s.pc))
      | some w => s.decoded w

end Sys2Proof.Machine
end

