-- ==== Sys2Proof/Machine/Step.lean ====
section
/-! DEFINITION. One step of the core, and the launch on one word (spec R27). -/

namespace Sys2Proof.Machine

/-- One step: the checks, the fetch and the decoding of State.front, then the instruction (R27, R209). Nothing happens between two
steps, and a write is visible to the next instruction (log 16, log 19). -/
def step (s : State) : Host.Outcome State Fault Refusal :=
  match s.front with
  | .run i => exec i s
  | .stop o => o

/-- `s` with the instruction whose bits are `w` (numbered as the opcode table numbers them, bits above `nbits` 0) placed
where step fetches next (log 12). -/
def State.withFetchWord (s : State) (nbits w : Nat) : State :=
  s.placeNext (BitVec.ofNat 32 (w % 2 ^ nbits))

end Sys2Proof.Machine
end

