-- ==== Sys2Proof/Safety.lean ====
section
/-! DEFINITION. The terms in which claims are stated: when an instruction completes, what a rule's encoding and assembler
lines claim, launch premises, and the end of a run (spec R23, R80, R120, R203, R232, R238). -/

namespace Sys2Proof.Machine

/-- The instruction completes at `s`: exec answers a next state in which the destination register, unless it is x[0],
holds a value with `P`, and every other register holds what it held (R23). -/
def Completes (i : Instr) (s : State) (P : Word → Prop) : Prop :=
  ∃ t, exec i s = .next t ∧ (i.dest ≠ 0#5 → P (t.readReg i.dest)) ∧ ∀ r, r ≠ i.dest → t.readReg r = s.readReg r

/-- The instruction raises the Division by Zero Fault at `s` (R200). -/
def RaisesDivisionByZero (i : Instr) (s : State) : Prop := ∃ p, exec i s = .fault (.divisionByZero p)

/-- The divisor of a divide or remainder instruction is 0: the register x[ry] or the immediate (R120, R200). -/
def zeroDivisor (i : Instr) (s : State) : Bool :=
  match i with
  | .div _ _ ry | .divu _ _ ry | .rem _ _ ry | .remu _ _ ry => s.readReg ry == 0#32
  | .divi _ _ imm | .divui _ _ imm | .remi _ _ imm | .remui _ _ imm => imm == 0#16
  | .add _ _ _ | .addi _ _ _ | .sub _ _ _ | .subi _ _ _ | .mul _ _ _ | .muli _ _ _
  | .mulu _ _ _ | .mului _ _ _ | .and _ _ _ | .andi _ _ _ | .or _ _ _ | .ori _ _ _
  | .xor _ _ _ | .xori _ _ _ | .xnor _ _ _ | .xnori _ _ _ | .sll _ _ _ | .slli _ _ _
  | .slr _ _ _ | .slri _ _ _ | .sar _ _ _ | .sari _ _ _ | .ldhi _ _ => false

/-- The encoding line of an RRR rule: every word with these opcode bits under the mask 0xFC000000 decodes to the
instruction, its fields read off bits 15:11, 25:21 and 20:16, whatever bits 10:0 hold (R61, R71). -/
def EncodedRRR (bits : Word) (c : RegNum → RegNum → RegNum → Instr) : Prop :=
  ∀ w : Word, w &&& 0xFC000000#32 = bits →
    decode w = .instr (c (w.extractLsb' 11 5) (w.extractLsb' 21 5) (w.extractLsb' 16 5))

/-- The encoding line of an RRI rule, its fields read off bits 20:16, 25:21 and 15:0 (R62). -/
def EncodedRRI (bits : Word) (c : RegNum → RegNum → Imm → Instr) : Prop :=
  ∀ w : Word, w &&& 0xFC000000#32 = bits →
    decode w = .instr (c (w.extractLsb' 16 5) (w.extractLsb' 21 5) (w.extractLsb' 0 16))

/-- The encoding line of a shift-immediate rule: bits 15:5 are ignored, bits 4:0 are the immediate (R62, R73). -/
def EncodedShiftImm (bits : Word) (c : RegNum → RegNum → Imm → Instr) : Prop :=
  ∀ w : Word, w &&& 0xFC000000#32 = bits →
    decode w = .instr (c (w.extractLsb' 16 5) (w.extractLsb' 21 5) (0#11 ++ w.extractLsb' 0 5))

/-- The assembler line of an RRR rule (R80). -/
def AssembledRRR (m : String) (c : RegNum → RegNum → RegNum → Instr) : Prop :=
  ∀ rr rx ry, assemble m [.reg rr, .reg rx, .reg ry] = some (c rr rx ry)

/-- The assembler line of an RRI rule, with the range of its immediate: a value outside it is rejected (R80). -/
def AssembledRRI (m : String) (lo hi : Int) (c : RegNum → RegNum → Imm → Instr) : Prop :=
  ∀ rr rx v, assemble m [.reg rr, .reg rx, .num v] =
    if lo ≤ v ∧ v ≤ hi then some (c rr rx (BitVec.ofInt 16 v)) else none

/-- Launch premise ProgramLoaded: PROGRAM is a finite map from word addresses to whole words (R232 (a)). -/
abbrev ProgramLoaded (s : State) : Prop := s.program.wf ∧ s.program.wordComplete

/-- The launch premises a state can show: ProgramLoaded, EntryAligned, EndAligned, X0Zero, and no fault recorded (R30,
R232 (a), (b), (c), (f)). -/
abbrev LaunchPremises (s : State) : Prop :=
  ProgramLoaded s ∧ Aligned s.pc ∧ Aligned s.endAddr ∧ s.readReg 0#5 = 0#32 ∧ s.faultRecord = none

/-- A state from which step fetches: no fault recorded, a launched pc and END, and END not reached (R27, R209). -/
abbrev Fetches (s : State) : Prop :=
  s.faultRecord = none ∧ Aligned s.pc ∧ Aligned s.endAddr ∧ s.pc ≠ s.endAddr

/-- How a run stands after a number of steps (R238). -/
inductive RunEnd where
  /-- The steps asked for are done and the run has not been seen to end. -/
  | running (s : State)
  /-- The run ended normally: the pc is END, and `final` is the final state. -/
  | ended (final : State)
  /-- A fault ended the run; the state is the one before the faulting instruction, with the fault recorded (R201). -/
  | faulted (f : Fault) (s : State)
  /-- PROGRAM has no word at the pc (R43). -/
  | stuck (s : State)
  /-- The run met something the spec gives no meaning (R76) or was no launch (R44); the mark stays (R76). -/
  | refused (r : Refusal) (s : State)
  deriving DecidableEq, Repr

/-- The state a run stands at. -/
def RunEnd.state : RunEnd → State
  | .running s | .ended s | .faulted _ s | .stuck s | .refused _ s => s

/-- How a run stands, without its state and its fault's payload. -/
inductive RunKind where
  | running | ended | divisionByZero | illegalInstruction | stuck | refused
  deriving DecidableEq, Repr

/-- The kind of a run's end. -/
def RunEnd.kind : RunEnd → RunKind
  | .running _ => .running
  | .ended _ => .ended
  | .faulted (.divisionByZero _) _ => .divisionByZero
  | .faulted (.illegalInstruction _ _) _ => .illegalInstruction
  | .stuck _ => .stuck
  | .refused _ _ => .refused

/-- A run of at most `k` steps: it ends at END, at a fault, at a refusal or at a stuck fetch, and nothing follows
(R76, R203, R238). -/
def runFor : Nat → State → RunEnd
  | 0, s => .running s
  | k + 1, s =>
    match step s with
    | .next t => runFor k t
    | .fault f => .faulted f (s.recordFault f)
    | .refused .runOver => .ended s
    | .refused (.noWordAt _) => .stuck s
    | .refused r => .refused r s

end Sys2Proof.Machine
end

