-- ==== Sys2Proof/Certificates/Slice0/Obligations.lean ====
section
/-! DEFINITION. The statements for the provers: the 31 instructions one by one, then the machine (OBLIGATIONS.json lists
them). -/

open Sys2Proof Sys2Proof.Machine

/-- ADD (R100): its encoding line, its assembler line, its result, and that no other register changes.
The field positions are those of R61 and R62 (decision D1). -/
def Obligations.AddWritesTheSum : Prop :=
  EncodedRRR 0x00000000#32 .add ∧ AssembledRRR "add" .add ∧
    ∀ rr rx ry s, Completes (.add rr rx ry) s fun v =>
        v.toNat = ((s.readReg rx).toNat + (s.readReg ry).toNat) % 2 ^ 32

/-- ADDI (R101): its encoding line, its assembler line, its result, and that no other register changes.
The field positions are those of R61 and R62 (decision D1). -/
def Obligations.AddiWritesTheSumWithTheSignedImmediate : Prop :=
  EncodedRRI 0x04000000#32 .addi ∧ AssembledRRI "addi" (-32768) 32767 .addi ∧
    ∀ rr rx imm s, Completes (.addi rr rx imm) s fun v =>
        (v.toNat : Int) = (((s.readReg rx).toNat : Int) + imm.toInt) % 2 ^ 32

/-- SUB (R102): its encoding line, its assembler line, its result, and that no other register changes.
The field positions are those of R61 and R62 (decision D1). -/
def Obligations.SubWritesTheDifference : Prop :=
  EncodedRRR 0x08000000#32 .sub ∧ AssembledRRR "sub" .sub ∧
    ∀ rr rx ry s, Completes (.sub rr rx ry) s fun v =>
        (v.toNat : Int) = (((s.readReg rx).toNat : Int) - (s.readReg ry).toNat) % 2 ^ 32

/-- SUBI (R103): its encoding line, its assembler line, its result, and that no other register changes.
The field positions are those of R61 and R62 (decision D1). -/
def Obligations.SubiWritesTheDifferenceWithTheSignedImmediate : Prop :=
  EncodedRRI 0x0C000000#32 .subi ∧ AssembledRRI "subi" (-32768) 32767 .subi ∧
    ∀ rr rx imm s, Completes (.subi rr rx imm) s fun v =>
        (v.toNat : Int) = (((s.readReg rx).toNat : Int) - imm.toInt) % 2 ^ 32

/-- MUL (R104): its encoding line, its assembler line, its result, and that no other register changes.
The field positions are those of R61 and R62 (decision D1). -/
def Obligations.MulWritesTheSignedProduct : Prop :=
  EncodedRRR 0x10000000#32 .mul ∧ AssembledRRR "mul" .mul ∧
    ∀ rr rx ry s, Completes (.mul rr rx ry) s fun v =>
        (v.toNat : Int) = ((s.readReg rx).toInt * (s.readReg ry).toInt) % 2 ^ 32

/-- MULI (R105): its encoding line, its assembler line, its result, and that no other register changes.
The field positions are those of R61 and R62 (decision D1). -/
def Obligations.MuliWritesTheSignedProduct : Prop :=
  EncodedRRI 0x14000000#32 .muli ∧ AssembledRRI "muli" (-32768) 32767 .muli ∧
    ∀ rr rx imm s, Completes (.muli rr rx imm) s fun v =>
        (v.toNat : Int) = ((s.readReg rx).toInt * imm.toInt) % 2 ^ 32

/-- MULU (R106): its encoding line, its assembler line, its result, and that no other register changes.
The field positions are those of R61 and R62 (decision D1). -/
def Obligations.MuluWritesTheUnsignedProduct : Prop :=
  EncodedRRR 0x18000000#32 .mulu ∧ AssembledRRR "mulu" .mulu ∧
    ∀ rr rx ry s, Completes (.mulu rr rx ry) s fun v =>
        v.toNat = ((s.readReg rx).toNat * (s.readReg ry).toNat) % 2 ^ 32

/-- MULUI (R107): its encoding line, its assembler line, its result, and that no other register changes.
The field positions are those of R61 and R62 (decision D1). -/
def Obligations.MuluiWritesTheUnsignedProduct : Prop :=
  EncodedRRI 0x1C000000#32 .mului ∧ AssembledRRI "mului" 0 65535 .mului ∧
    ∀ rr rx imm s, Completes (.mului rr rx imm) s fun v =>
        v.toNat = ((s.readReg rx).toNat * imm.toNat) % 2 ^ 32

/-- DIV (R122): its encoding, its assembler line, its fault on a zero divisor, and its result. DERIVED: for operands of opposite sign
and an inexact quotient the result rests on the spec's decision D6 (log 9), not on its source. -/
def Obligations.DivWritesTheQuotientTowardZero : Prop :=
  EncodedRRR 0x20000000#32 .div ∧ AssembledRRR "div" .div ∧
    ∀ rr rx ry s,
      ((s.readReg ry) = 0#32 → RaisesDivisionByZero (.div rr rx ry) s) ∧
      ((s.readReg ry) ≠ 0#32 → Completes (.div rr rx ry) s fun v =>
        ∃ q : Int, q.natAbs = (s.readReg rx).toInt.natAbs / (s.readReg ry).toInt.natAbs ∧ (0 ≤ (s.readReg rx).toInt * (s.readReg ry).toInt → 0 ≤ q) ∧
        ((s.readReg rx).toInt * (s.readReg ry).toInt ≤ 0 → q ≤ 0) ∧ (v.toNat : Int) = q % 2 ^ 32)

/-- DIVI (R123): its encoding, its assembler line, its fault on a zero divisor, and its result. DERIVED: for operands of opposite sign
and an inexact quotient the result rests on the spec's decision D6 (log 9), not on its source.
DERIVED too: the register-immediate format of opcode 001001 is the spec's resolution of conflict C1 (log 21). -/
def Obligations.DiviWritesTheQuotientTowardZero : Prop :=
  EncodedRRI 0x24000000#32 .divi ∧ AssembledRRI "divi" (-32768) 32767 .divi ∧
    ∀ rr rx imm s,
      (imm = 0#16 → RaisesDivisionByZero (.divi rr rx imm) s) ∧
      (imm ≠ 0#16 → Completes (.divi rr rx imm) s fun v =>
        ∃ q : Int, q.natAbs = (s.readReg rx).toInt.natAbs / imm.toInt.natAbs ∧ (0 ≤ (s.readReg rx).toInt * imm.toInt → 0 ≤ q) ∧
        ((s.readReg rx).toInt * imm.toInt ≤ 0 → q ≤ 0) ∧ (v.toNat : Int) = q % 2 ^ 32)

/-- DIVU (R124): its encoding line, its assembler line, its fault on a zero divisor, its result, and that no other register changes.
The field positions are those of R61 and R62 (decision D1). -/
def Obligations.DivuWritesTheUnsignedQuotient : Prop :=
  EncodedRRR 0x28000000#32 .divu ∧ AssembledRRR "divu" .divu ∧
    ∀ rr rx ry s,
      ((s.readReg ry) = 0#32 → RaisesDivisionByZero (.divu rr rx ry) s) ∧
      ((s.readReg ry) ≠ 0#32 → Completes (.divu rr rx ry) s fun v =>
        v.toNat = (s.readReg rx).toNat / (s.readReg ry).toNat)

/-- DIVUI (R125): its encoding line, its assembler line, its fault on a zero divisor, its result, and that no other register changes.
The field positions are those of R61 and R62 (decision D1).
DERIVED: the register-immediate format of opcode 001011 is the spec's resolution of conflict C1 (log 21). -/
def Obligations.DivuiWritesTheUnsignedQuotient : Prop :=
  EncodedRRI 0x2C000000#32 .divui ∧ AssembledRRI "divui" 0 65535 .divui ∧
    ∀ rr rx imm s,
      (imm = 0#16 → RaisesDivisionByZero (.divui rr rx imm) s) ∧
      (imm ≠ 0#16 → Completes (.divui rr rx imm) s fun v =>
        v.toNat = (s.readReg rx).toNat / imm.toNat)

/-- REM (R126): its encoding, its assembler line, its fault on a zero divisor, and its result. DERIVED: for operands of opposite sign
and an inexact quotient the result rests on the spec's decision D6 (log 9), not on its source. -/
def Obligations.RemWritesTheRemainderOfTheDividendsSign : Prop :=
  EncodedRRR 0x30000000#32 .rem ∧ AssembledRRR "rem" .rem ∧
    ∀ rr rx ry s,
      ((s.readReg ry) = 0#32 → RaisesDivisionByZero (.rem rr rx ry) s) ∧
      ((s.readReg ry) ≠ 0#32 → Completes (.rem rr rx ry) s fun v =>
        (∃ q : Int, (s.readReg rx).toInt = (s.readReg ry).toInt * q + v.toInt) ∧ v.toInt.natAbs < (s.readReg ry).toInt.natAbs ∧
        (v.toInt = 0 ∨ (v.toInt < 0 ↔ (s.readReg rx).toInt < 0)))

/-- REMI (R127): its encoding, its assembler line, its fault on a zero divisor, and its result. DERIVED: for operands of opposite sign
and an inexact quotient the result rests on the spec's decision D6 (log 9), not on its source.
DERIVED too: the register-immediate format of opcode 001101 is the spec's resolution of conflict C1 (log 21). -/
def Obligations.RemiWritesTheRemainderOfTheDividendsSign : Prop :=
  EncodedRRI 0x34000000#32 .remi ∧ AssembledRRI "remi" (-32768) 32767 .remi ∧
    ∀ rr rx imm s,
      (imm = 0#16 → RaisesDivisionByZero (.remi rr rx imm) s) ∧
      (imm ≠ 0#16 → Completes (.remi rr rx imm) s fun v =>
        (∃ q : Int, (s.readReg rx).toInt = imm.toInt * q + v.toInt) ∧ v.toInt.natAbs < imm.toInt.natAbs ∧
        (v.toInt = 0 ∨ (v.toInt < 0 ↔ (s.readReg rx).toInt < 0)))

/-- REMU (R128): its encoding line, its assembler line, its fault on a zero divisor, its result, and that no other register changes.
The field positions are those of R61 and R62 (decision D1). -/
def Obligations.RemuWritesTheUnsignedRemainder : Prop :=
  EncodedRRR 0x38000000#32 .remu ∧ AssembledRRR "remu" .remu ∧
    ∀ rr rx ry s,
      ((s.readReg ry) = 0#32 → RaisesDivisionByZero (.remu rr rx ry) s) ∧
      ((s.readReg ry) ≠ 0#32 → Completes (.remu rr rx ry) s fun v =>
        v.toNat = (s.readReg rx).toNat % (s.readReg ry).toNat)

/-- REMUI (R129): its encoding line, its assembler line, its fault on a zero divisor, its result, and that no other register changes.
The field positions are those of R61 and R62 (decision D1).
DERIVED: the register-immediate format of opcode 001111 is the spec's resolution of conflict C1 (log 21). -/
def Obligations.RemuiWritesTheUnsignedRemainder : Prop :=
  EncodedRRI 0x3C000000#32 .remui ∧ AssembledRRI "remui" 0 65535 .remui ∧
    ∀ rr rx imm s,
      (imm = 0#16 → RaisesDivisionByZero (.remui rr rx imm) s) ∧
      (imm ≠ 0#16 → Completes (.remui rr rx imm) s fun v =>
        v.toNat = (s.readReg rx).toNat % imm.toNat)

/-- AND (R140): its encoding line, its assembler line, its result, and that no other register changes.
The field positions are those of R61 and R62 (decision D1). -/
def Obligations.AndWritesTheBitwiseAnd : Prop :=
  EncodedRRR 0x40000000#32 .and ∧ AssembledRRR "and" .and ∧
    ∀ rr rx ry s, Completes (.and rr rx ry) s fun v =>
        ∀ k, k < 32 → v.getLsbD k = ((s.readReg rx).getLsbD k && (s.readReg ry).getLsbD k)

/-- ANDI (R141): its encoding line, its assembler line, its result, and that no other register changes.
The field positions are those of R61 and R62 (decision D1). -/
def Obligations.AndiWritesTheBitwiseAnd : Prop :=
  EncodedRRI 0x44000000#32 .andi ∧ AssembledRRI "andi" 0 65535 .andi ∧
    ∀ rr rx imm s, Completes (.andi rr rx imm) s fun v =>
        ∀ k, k < 32 → v.getLsbD k = if k < 16 then ((s.readReg rx).getLsbD k && imm.getLsbD k) else false

/-- OR (R142): its encoding line, its assembler line, its result, and that no other register changes.
The field positions are those of R61 and R62 (decision D1). -/
def Obligations.OrWritesTheBitwiseOr : Prop :=
  EncodedRRR 0x48000000#32 .or ∧ AssembledRRR "or" .or ∧
    ∀ rr rx ry s, Completes (.or rr rx ry) s fun v =>
        ∀ k, k < 32 → v.getLsbD k = ((s.readReg rx).getLsbD k || (s.readReg ry).getLsbD k)

/-- ORI (R143): its encoding line, its assembler line, its result, and that no other register changes.
The field positions are those of R61 and R62 (decision D1). -/
def Obligations.OriWritesTheBitwiseOr : Prop :=
  EncodedRRI 0x4C000000#32 .ori ∧ AssembledRRI "ori" 0 65535 .ori ∧
    ∀ rr rx imm s, Completes (.ori rr rx imm) s fun v =>
        ∀ k, k < 32 → v.getLsbD k = if k < 16 then ((s.readReg rx).getLsbD k || imm.getLsbD k) else (s.readReg rx).getLsbD k

/-- XOR (R144): its encoding line, its assembler line, its result, and that no other register changes.
The field positions are those of R61 and R62 (decision D1). -/
def Obligations.XorWritesTheBitwiseXor : Prop :=
  EncodedRRR 0x50000000#32 .xor ∧ AssembledRRR "xor" .xor ∧
    ∀ rr rx ry s, Completes (.xor rr rx ry) s fun v =>
        ∀ k, k < 32 → v.getLsbD k = ((s.readReg rx).getLsbD k ^^ (s.readReg ry).getLsbD k)

/-- XORI (R145): its encoding line, its assembler line, its result, and that no other register changes.
The field positions are those of R61 and R62 (decision D1). -/
def Obligations.XoriWritesTheBitwiseXor : Prop :=
  EncodedRRI 0x54000000#32 .xori ∧ AssembledRRI "xori" 0 65535 .xori ∧
    ∀ rr rx imm s, Completes (.xori rr rx imm) s fun v =>
        ∀ k, k < 32 → v.getLsbD k = if k < 16 then ((s.readReg rx).getLsbD k ^^ imm.getLsbD k) else (s.readReg rx).getLsbD k

/-- XNOR (R146): its encoding line, its assembler line, its result, and that no other register changes.
The field positions are those of R61 and R62 (decision D1). -/
def Obligations.XnorWritesTheBitwiseEquivalence : Prop :=
  EncodedRRR 0x58000000#32 .xnor ∧ AssembledRRR "xnor" .xnor ∧
    ∀ rr rx ry s, Completes (.xnor rr rx ry) s fun v =>
        ∀ k, k < 32 → v.getLsbD k = ((s.readReg rx).getLsbD k == (s.readReg ry).getLsbD k)

/-- XNORI (R147): its encoding line, its assembler line, its result, and that no other register changes.
The field positions are those of R61 and R62 (decision D1). -/
def Obligations.XnoriWritesTheBitwiseEquivalence : Prop :=
  EncodedRRI 0x5C000000#32 .xnori ∧ AssembledRRI "xnori" 0 65535 .xnori ∧
    ∀ rr rx imm s, Completes (.xnori rr rx imm) s fun v =>
        ∀ k, k < 32 → v.getLsbD k = if k < 16 then ((s.readReg rx).getLsbD k == imm.getLsbD k) else !(s.readReg rx).getLsbD k

/-- SLL (R161): its encoding line, its assembler line, its result, and that no other register changes.
The field positions are those of R61 and R62 (decision D1). -/
def Obligations.SllMovesBitsUpAndFillsWithZeros : Prop :=
  EncodedRRR 0x60000000#32 .sll ∧ AssembledRRR "sll" .sll ∧
    ∀ rr rx ry s, Completes (.sll rr rx ry) s fun v =>
        ∀ k, k < 32 → v.getLsbD k = if ((s.readReg ry).toNat % 32) ≤ k then (s.readReg rx).getLsbD (k - ((s.readReg ry).toNat % 32)) else false

/-- SLLI (R162): its encoding line, its assembler line, its result, and that no other register changes.
The field positions are those of R61 and R62 (decision D1). -/
def Obligations.SlliMovesBitsUpAndFillsWithZeros : Prop :=
  EncodedShiftImm 0x64000000#32 .slli ∧ AssembledRRI "slli" 0 31 .slli ∧
    ∀ rr rx imm s, Completes (.slli rr rx imm) s fun v =>
        ∀ k, k < 32 → v.getLsbD k = if (imm.toNat % 32) ≤ k then (s.readReg rx).getLsbD (k - (imm.toNat % 32)) else false

/-- SLR (R163): its encoding line, its assembler line, its result, and that no other register changes.
The field positions are those of R61 and R62 (decision D1). -/
def Obligations.SlrMovesBitsDownAndFillsWithZeros : Prop :=
  EncodedRRR 0x68000000#32 .slr ∧ AssembledRRR "slr" .slr ∧
    ∀ rr rx ry s, Completes (.slr rr rx ry) s fun v =>
        ∀ k, k < 32 → v.getLsbD k = if k + ((s.readReg ry).toNat % 32) < 32 then (s.readReg rx).getLsbD (k + ((s.readReg ry).toNat % 32)) else false

/-- SLRI (R164): its encoding line, its assembler line, its result, and that no other register changes.
The field positions are those of R61 and R62 (decision D1). -/
def Obligations.SlriMovesBitsDownAndFillsWithZeros : Prop :=
  EncodedShiftImm 0x6C000000#32 .slri ∧ AssembledRRI "slri" 0 31 .slri ∧
    ∀ rr rx imm s, Completes (.slri rr rx imm) s fun v =>
        ∀ k, k < 32 → v.getLsbD k = if k + (imm.toNat % 32) < 32 then (s.readReg rx).getLsbD (k + (imm.toNat % 32)) else false

/-- SAR (R165): its encoding line, its assembler line, its result, and that no other register changes.
The field positions are those of R61 and R62 (decision D1). -/
def Obligations.SarMovesBitsDownAndReplicatesTheSign : Prop :=
  EncodedRRR 0x70000000#32 .sar ∧ AssembledRRR "sar" .sar ∧
    ∀ rr rx ry s, Completes (.sar rr rx ry) s fun v =>
        ∀ k, k < 32 → v.getLsbD k = if k + ((s.readReg ry).toNat % 32) < 32 then (s.readReg rx).getLsbD (k + ((s.readReg ry).toNat % 32)) else (s.readReg rx).getLsbD 31

/-- SARI (R166): its encoding line, its assembler line, its result, and that no other register changes.
The field positions are those of R61 and R62 (decision D1). -/
def Obligations.SariMovesBitsDownAndReplicatesTheSign : Prop :=
  EncodedShiftImm 0x74000000#32 .sari ∧ AssembledRRI "sari" 0 31 .sari ∧
    ∀ rr rx imm s, Completes (.sari rr rx imm) s fun v =>
        ∀ k, k < 32 → v.getLsbD k = if k + (imm.toNat % 32) < 32 then (s.readReg rx).getLsbD (k + (imm.toNat % 32)) else (s.readReg rx).getLsbD 31

/-- LDHI (R180): its encoding line, its assembler line, its result, and that no other register changes.
The field positions are those of R61 and R62 (decision D1). -/
def Obligations.LdhiPlacesTheImmediateInTheUpperHalf : Prop :=
  (∀ w : Word, w &&& 0xFC000000#32 = 0x7C000000#32 →
      decode w = .instr (.ldhi (w.extractLsb' 16 5) (w.extractLsb' 0 16))) ∧ (∀ rr v, assemble "ldhi" [.reg rr, .num v] =
      if 0 ≤ v ∧ v ≤ 65535 then some (.ldhi rr (BitVec.ofInt 16 v)) else none) ∧
    ∀ rr imm s, Completes (.ldhi rr imm) s fun v =>
        ∀ k, k < 32 → v.getLsbD k = if k < 16 then false else imm.getLsbD (k - 16)

/-- The frame of every instruction (R12, R23, R26, R28, R41): where it completes, the pc advances by 4 modulo 2^32, every
register but the destination, every byte of PROGRAM, END and the fault record are unchanged. DERIVED: the pc and PROGRAM are
the spec's decisions D2, D13, D14. -/
def Obligations.CompletionChangesOnlyTheDestinationAndThePc : Prop :=
  ∀ (i : Instr) (s t : State), exec i s = .next t →
    t.pc.toNat = (s.pc.toNat + 4) % 2 ^ 32 ∧ (∀ r, r ≠ i.dest → t.readReg r = s.readReg r) ∧
    (∀ a, t.program.readByte a = s.program.readByte a) ∧ t.endAddr = s.endAddr ∧ t.faultRecord = s.faultRecord

/-- R23: an instruction writes only the register its rr field names, reads only the registers its rx and ry fields name
(Instr.sources), and writes none when it faults: two states that agree on those registers get the same result or both fault. -/
def Obligations.InstructionsTouchOnlyTheRegistersTheirFieldsName : Prop :=
  ∀ (i : Instr) (s s' : State), (∀ r ∈ i.sources, s.readReg r = s'.readReg r) →
    (∀ t, exec i s = .next t → (∀ r, r ≠ i.dest → t.readReg r = s.readReg r) ∧
      ∃ t', exec i s' = .next t' ∧ t'.readReg i.dest = t.readReg i.dest) ∧
    ((∃ f, exec i s = .fault f) → ∃ f', exec i s' = .fault f')

/-- R22: x[0] reads 0 in every state, a write to it changes no register, and an instruction whose destination is x[0] executes in
full: it faults if its divisor is 0, and otherwise only the pc advances. DERIVED: x[0] is the spec's decision D4 (log 10). -/
def Obligations.ZeroRegisterReadsZeroAndDiscardsWrites : Prop :=
  (∀ s : State, s.readReg 0#5 = 0#32) ∧ (∀ (s : State) (v : Word) (r : RegNum), (s.writeReg 0#5 v).readReg r = s.readReg r) ∧
    ∀ (i : Instr) (s : State), i.dest = 0#5 →
      (zeroDivisor i s = false → exec i s = .next s.advance) ∧
      (zeroDivisor i s = true → exec i s = .fault (.divisionByZero s.pc))

/-- R200: the Division by Zero Fault is raised by exactly the eight divide and remainder instructions, exactly when the divisor
(the register x[ry], or the immediate) is 0 (`zeroDivisor`). -/
def Obligations.ExactlyEightInstructionsRaiseDivisionByZero : Prop :=
  ∀ (i : Instr) (s : State), RaisesDivisionByZero i s ↔ zeroDivisor i s = true

/-- R120, R201, R203: a step whose instruction divides by 0 faults with its own pc; the state recorded with the fault has every
register, the pc, PROGRAM and END as before; and from that state there is no further step, only the fault. DERIVED: what the
fault does is the spec's decision D7 (log 7). -/
def Obligations.FaultLeavesTheStateAndEndsTheRun : Prop :=
  ∀ (s : State) (w : Word) (i : Instr), Fetches s → s.program.word s.pc = some w → decode w = .instr i →
    zeroDivisor i s = true →
    step s = .fault (.divisionByZero s.pc) ∧
    ∀ k, ∃ t, runFor (k + 1) s = .faulted (.divisionByZero s.pc) t ∧ (∀ r, t.readReg r = s.readReg r) ∧ t.pc = s.pc ∧
      t.program = s.program ∧ t.endAddr = s.endAddr ∧ step t = .fault (.divisionByZero s.pc)

/-- R75, R76, R207: a fetched word with opcode 011110 faults as IllegalInstruction with the pc and the word; a fetched word with
bit 31 set is refused. DERIVED: the spec's decisions D8 and D9 (log 11). -/
def Obligations.IllegalAndRefusedWordsStopTheStep : Prop :=
  ∀ (s : State) (w : Word), Fetches s → s.program.word s.pc = some w →
    (w.extractLsb' 26 6 = 0x1E#6 → step s = .fault (.illegalInstruction s.pc w)) ∧
    (w.getLsbD 31 = true → step s = .refused (.outsideSection s.pc w))

/-- R27, R43, R44, R203, R209: what a step answers before it decodes, in order. DERIVED: the spec's decisions D7, D13, D14, D19,
and the model's choices: a step of a state with a recorded fault answers that fault again (log 7), where there is no step it answers
a refusal (log 6), and a launch's alignment is checked at every step (log 8). -/
def Obligations.StepChecksInOrder : Prop :=
  (∀ (s : State) (f : Fault), s.faultRecord = some f → step s = .fault f) ∧
    (∀ s : State, s.faultRecord = none → ¬ (Aligned s.pc ∧ Aligned s.endAddr) → step s = .refused .misalignedLaunch) ∧
    (∀ s : State, s.faultRecord = none → Aligned s.pc → Aligned s.endAddr → s.pc = s.endAddr → step s = .refused .runOver) ∧
    (∀ s : State, Fetches s → s.program.word s.pc = none → step s = .refused (.noWordAt s.pc))

/-- R27, R42, R45, R70: where the four bytes at the pc, big-endian, decode to an instruction, a step is that instruction and
nothing more. DERIVED: decisions D1, D13, D14. -/
def Obligations.StepRunsTheDecodedInstruction : Prop :=
  ∀ (s : State) (b0 b1 b2 b3 : Byte) (i : Instr), Fetches s →
    s.program.readByte s.pc.toNat = some b0 → s.program.readByte (s.pc.toNat + 1) = some b1 →
    s.program.readByte (s.pc.toNat + 2) = some b2 → s.program.readByte (s.pc.toNat + 3) = some b3 →
    decode (b0 ++ b1 ++ b2 ++ b3) = .instr i → step s = exec i s

/-- R208: every instruction completes or raises the Division by Zero Fault on a zero divisor, every word with one of the 31
opcodes is an instruction, and a step that fetches has no outcome beside a next state and the listed ones. -/
def Obligations.StepOutcomesAreTheListedOnes : Prop :=
  (∀ (i : Instr) (s : State), (∃ t, exec i s = .next t) ∨ (zeroDivisor i s = true ∧ RaisesDivisionByZero i s)) ∧
    (∀ w : Word, w.getLsbD 31 = false → w.extractLsb' 26 6 ≠ 0x1E#6 → ∃ i, decode w = .instr i) ∧
    ∀ s : State, Fetches s → (∃ t, step s = .next t) ∨ (∃ p, step s = .fault (.divisionByZero p)) ∨
      (∃ p w, step s = .fault (.illegalInstruction p w)) ∨ (∃ p w, step s = .refused (.outsideSection p w)) ∨
      (step s = .refused (.noWordAt s.pc) ∧ s.program.word s.pc = none)

/-- R109: MUL and MULU are the same function of the state; MULI and MULUI agree exactly when the destination is x[0], imm[15] is 0,
or the low half of x[rx] is 0. DERIVED: the spec marks the law as derived. -/
def Obligations.SignedAndUnsignedProductsAgreeOnRegisters : Prop :=
  (∀ rr rx ry s, exec (.mul rr rx ry) s = exec (.mulu rr rx ry) s) ∧
    ∀ rr rx imm s, exec (.muli rr rx imm) s = exec (.mului rr rx imm) s ↔
      rr = 0#5 ∨ imm.getLsbD 15 = false ∨ (s.readReg rx).extractLsb' 0 16 = 0#16

/-- R132: for every non-zero divisor the register results of a divide and of the remainder instruction on the same operands satisfy
quotient * divisor + remainder = dividend modulo 2^32, the overflow pair included. DERIVED: the spec marks the law as derived. -/
def Obligations.QuotientTimesDivisorPlusRemainderIsTheDividend : Prop :=
  (∀ q r' rx ry s, s.readReg ry ≠ 0#32 → q ≠ 0#5 → r' ≠ 0#5 → ∃ t u,
      exec (.div q rx ry) s = .next t ∧ exec (.rem r' rx ry) s = .next u ∧
      t.readReg q * s.readReg ry + u.readReg r' = s.readReg rx) ∧
    (∀ q r' rx ry s, s.readReg ry ≠ 0#32 → q ≠ 0#5 → r' ≠ 0#5 → ∃ t u,
      exec (.divu q rx ry) s = .next t ∧ exec (.remu r' rx ry) s = .next u ∧
      t.readReg q * s.readReg ry + u.readReg r' = s.readReg rx) ∧
    (∀ q r' rx imm s, imm ≠ 0#16 → q ≠ 0#5 → r' ≠ 0#5 → ∃ t u,
      exec (.divi q rx imm) s = .next t ∧ exec (.remi r' rx imm) s = .next u ∧
      t.readReg q * imm.signExtend 32 + u.readReg r' = s.readReg rx) ∧
    (∀ q r' rx imm s, imm ≠ 0#16 → q ≠ 0#5 → r' ≠ 0#5 → ∃ t u,
      exec (.divui q rx imm) s = .next t ∧ exec (.remui r' rx imm) s = .next u ∧
      t.readReg q * imm.zeroExtend 32 + u.readReg r' = s.readReg rx)

/-- R131: -2^31 divided by -1 raises nothing; the quotient is 0x80000000 and the remainder 0, in all four signed instructions.
DERIVED: the spec marks the rule as derived. -/
def Obligations.SignedOverflowGivesTheTruncatedQuotient : Prop :=
  (∀ rr rx ry s, s.readReg rx = 0x80000000#32 → s.readReg ry = 0xFFFFFFFF#32 →
      Completes (.div rr rx ry) s (· = 0x80000000#32) ∧
      Completes (.rem rr rx ry) s (· = 0#32)) ∧
    ∀ rr rx s, s.readReg rx = 0x80000000#32 →
      Completes (.divi rr rx 0xFFFF#16) s (· = 0x80000000#32) ∧
      Completes (.remi rr rx 0xFFFF#16) s (· = 0#32)

/-- R160: the amount is the low 5 bits of x[ry] or of imm, so n shifts by n mod 32, the other bits have no effect, and the value
shifted is always x[rx]; the register and the immediate form agree where their amounts do. -/
def Obligations.ShiftAmountIsTakenModuloThirtyTwo : Prop :=
  (∀ rr rx ry s,
      Completes (.sll rr rx ry) s (· = s.readReg rx <<< ((s.readReg ry).toNat % 32)) ∧
      Completes (.slr rr rx ry) s (· = s.readReg rx >>> ((s.readReg ry).toNat % 32)) ∧
      Completes (.sar rr rx ry) s (· = (s.readReg rx).sshiftRight ((s.readReg ry).toNat % 32))) ∧
    (∀ rr rx imm s,
      Completes (.slli rr rx imm) s (· = s.readReg rx <<< (imm.toNat % 32)) ∧
      Completes (.slri rr rx imm) s (· = s.readReg rx >>> (imm.toNat % 32)) ∧
      Completes (.sari rr rx imm) s (· = (s.readReg rx).sshiftRight (imm.toNat % 32))) ∧
    ∀ rr rx ry imm s, (s.readReg ry).extractLsb' 0 5 = imm.extractLsb' 0 5 →
      exec (.sll rr rx ry) s = exec (.slli rr rx imm) s ∧ exec (.slr rr rx ry) s = exec (.slri rr rx imm) s ∧
      exec (.sar rr rx ry) s = exec (.sari rr rx imm) s

/-- R167, and the equivalents in R161, R163, R165: SLL multiplies by 2^n modulo 2^32, SLR is unsigned floor division and SAR signed
floor division by 2^n, in the register and the immediate forms. DERIVED: the spec marks them as derived. -/
def Obligations.ShiftsAreMultiplicationAndFloorDivision : Prop :=
  (∀ rr rx ry s,
      Completes (.sll rr rx ry) s (fun v => v.toNat = (s.readReg rx).toNat * 2 ^ ((s.readReg ry).toNat % 32) % 2 ^ 32) ∧
      Completes (.slr rr rx ry) s (fun v => v.toNat = (s.readReg rx).toNat / 2 ^ ((s.readReg ry).toNat % 32)) ∧
      Completes (.sar rr rx ry) s (fun v => v.toInt = (s.readReg rx).toInt / 2 ^ ((s.readReg ry).toNat % 32))) ∧
    ∀ rr rx imm s,
      Completes (.slli rr rx imm) s (fun v => v.toNat = (s.readReg rx).toNat * 2 ^ (imm.toNat % 32) % 2 ^ 32) ∧
      Completes (.slri rr rx imm) s (fun v => v.toNat = (s.readReg rx).toNat / 2 ^ (imm.toNat % 32)) ∧
      Completes (.sari rr rx imm) s (fun v => v.toInt = (s.readReg rx).toInt / 2 ^ (imm.toNat % 32))

/-- R181: LDHI with the upper half of K, then ORI with its lower half, leaves K in the destination, whatever it held before; with
x[0] as destination nothing is written. DERIVED: the spec marks the idiom as derived. -/
def Obligations.LdhiThenOriBuildsAnyConstant : Prop :=
  ∀ (d : RegNum) (K : Word) (s : State), ∃ t u,
    exec (.ldhi d (K.extractLsb' 16 16)) s = .next t ∧ exec (.ori d d (K.extractLsb' 0 16)) t = .next u ∧
    u.readReg d = (if d = 0#5 then 0#32 else K) ∧ ∀ r, r ≠ d → u.readReg r = s.readReg r

/-- R81: copy, small constants, bitwise NOT and negation through x[0], and the all-zero word as a no-operation (R77). DERIVED: the
spec marks the idioms as derived, and they rest on decision D4 (log 10). -/
def Obligations.ZeroRegisterIdioms : Prop :=
  (∀ d r s, Completes (.add d r 0#5) s (· = s.readReg r) ∧ Completes (.or d r 0#5) s (· = s.readReg r) ∧
      Completes (.xnor d r 0#5) s (· = ~~~ s.readReg r) ∧ Completes (.sub d 0#5 r) s (· = - s.readReg r)) ∧
    (∀ d (c : Imm) s, Completes (.addi d 0#5 c) s (fun v => v.toInt = c.toInt) ∧
      Completes (.ori d 0#5 c) s (fun v => v.toNat = c.toNat)) ∧
    decode 0#32 = .instr (.add 0#5 0#5 0#5) ∧ ∀ s, exec (.add 0#5 0#5 0#5) s = .next s.advance

/-- R82: decoding the canonical word of any well-formed instruction gives the instruction back, with every operand at every value.
DERIVED: the spec marks it as derived, the positions are decision D1, and the format of DIVI, DIVUI, REMI and REMUI is conflict
C1 (log 21). -/
def Obligations.DecodeOfEncodeIsTheInstruction : Prop :=
  ∀ i : Instr, i.wellFormed = true → decode (encode i) = .instr i

/-- R71, R72, R73, R82: encoding what a word decodes to clears exactly the bits that carry no information (10:0 of the RRR format,
25:21 of LDHI, 15:5 of the shift immediates) and the canonical word decodes to the same instruction. DERIVED: decisions D1, D10,
D11, conflict C1 for DIVI, DIVUI, REMI and REMUI (log 21), and the shift immediate as the decoder hands it on (log 14). -/
def Obligations.EncodeOfDecodeIsTheCanonicalWord : Prop :=
  ∀ (w : Word) (i : Instr), decode w = .instr i →
    decode (encode i) = .instr i ∧
    encode i = w &&& (if w.extractLsb' 26 6 = 0x1F#6 then 0xFC1FFFFF#32
      else if w.getLsbD 26 = false then 0xFFFFF800#32
      else if w.extractLsb' 26 6 = 0x19#6 ∨ w.extractLsb' 26 6 = 0x1B#6 ∨ w.extractLsb' 26 6 = 0x1D#6 then 0xFFFF001F#32
      else 0xFFFFFFFF#32)

/-- R70, R73, R75, R76: the decoder's verdicts by opcode, and that it yields only well-formed instructions. DERIVED: decisions D1, D8, D9;
the last clause, which has content for SLLI, SLRI and SARI alone, rests on the model's decoder clearing bits 15:5 of their immediate
(DEDUCED from R73, log 14). -/
def Obligations.DecoderVerdicts : Prop :=
  ∀ w : Word, (decode w = .illegalInstruction ↔ w.extractLsb' 26 6 = 0x1E#6) ∧
    (decode w = .refused ↔ w.getLsbD 31 = true) ∧ ∀ i, decode w = .instr i → i.wellFormed = true

/-- A few words of the spec's own encoding vectors, one per family, and the field extremes and verdicts (95_test_vectors.md 2.14,
2.15). DERIVED: decision D1, conflict C1 for the DIVI word (log 21), and the cleared bits of the SLLI word's immediate (log 14). -/
def Obligations.SpecEncodingVectorsDecode : Prop :=
  decode 0x0C238001#32 = .instr (.subi 3#5 1#5 0x8001#16) ∧ decode 0x24238001#32 = .instr (.divi 3#5 1#5 0x8001#16) ∧
    decode 0x58221800#32 = .instr (.xnor 3#5 1#5 2#5) ∧ decode 0x6423FFE4#32 = .instr (.slli 3#5 1#5 4#16) ∧
    decode 0x7FE3BEEF#32 = .instr (.ldhi 3#5 0xBEEF#16) ∧ decode 0x002217FF#32 = .instr (.add 2#5 1#5 2#5) ∧
    decode 0x7BFFFFFF#32 = .illegalInstruction ∧ decode 0xA8000000#32 = .refused

/-- R80: the assembler line written for a well-formed instruction is accepted and gives the instruction back. DERIVED: the syntax is
the spec's decision D20. -/
def Obligations.AssemblerAcceptsEveryListing : Prop :=
  ∀ i : Instr, i.wellFormed = true → assemble (listing i).1 (listing i).2 = some i

/-- R22, R25, R41, R44, R232: a step from any state that meets the launch premises keeps them: PROGRAM canonical and made of whole
words, pc and END multiples of 4, x[0] = 0, no fault recorded; and it changes neither PROGRAM nor END. DERIVED: decisions D4,
D13, D14, D18, D19, and the byte form of PROGRAM is the model's (log 4, log 5). -/
def Obligations.StepKeepsTheLaunchPremises : Prop :=
  ∀ s t : State, LaunchPremises s → step s = .next t →
    LaunchPremises t ∧ t.program = s.program ∧ t.endAddr = s.endAddr

/-- R30, R33: the model's reset is a launch: x[0] = 0, pc = ENTRY a multiple of 4, no fault recorded, nothing in PROGRAM. DERIVED:
the values of ENTRY, END and INIT_REGS are the model's choice (log 1, log 2, log 3). -/
def Obligations.ResetMeetsTheLaunchPremises : Prop :=
  LaunchPremises State.reset ∧ State.reset.pc = 0xE0000000#32 ∧ State.reset.endAddr = 0#32 ∧
    (∀ r, State.reset.readReg r = 0#32) ∧ (∀ a, State.reset.program.readByte a = none)

/-- R30, R33, R239: a launch puts INIT_REGS in x[1] to x[31], 0 in x[0], ENTRY in the pc, and records no fault, for every choice of
the arguments. DERIVED: decision D18. -/
def Obligations.LaunchSetsTheGivenArguments : Prop :=
  ∀ (m : Memory) (entry endAddr : Word) (init : Vector Word 31),
    (State.launch m entry endAddr init).readReg 0#5 = 0#32 ∧
    (∀ (n : Nat) (h : n < 31), (State.launch m entry endAddr init).readReg (BitVec.ofNat 5 (n + 1)) = init[n]) ∧
    (State.launch m entry endAddr init).pc = entry ∧ (State.launch m entry endAddr init).program = m ∧
    (State.launch m entry endAddr init).endAddr = endAddr ∧ (State.launch m entry endAddr init).faultRecord = none

/-- R203, R204, R213, R238: a run visits pc, pc + 4, ... and ends at END, at a precise fault, at a stuck fetch or at a refusal; it ends
normally exactly at END. DERIVED: decisions D7, D13, D14, D19, and the model's choices: the refusals that a run reads as stuck and as
ended (log 6), and the state recorded with a fault, which the run layer writes (log 7). -/
def Obligations.RunsAreStraightLineAndPrecise : Prop :=
  (∀ (k : Nat) (s : State), ∃ j u, j ≤ k ∧ runFor j s = .running u ∧ u.pc = s.pc + BitVec.ofNat 32 (4 * j) ∧
      u.program = s.program ∧ u.endAddr = s.endAddr ∧ u.faultRecord = s.faultRecord ∧
      match runFor k s with
      | .running t => j = k ∧ t = u
      | .ended t => j < k ∧ t = u ∧ u.pc = u.endAddr
      | .faulted f t => j < k ∧ step u = .fault f ∧ t = u.recordFault f
      | .stuck t => j < k ∧ t = u ∧ u.program.word u.pc = none
      | .refused r t => j < k ∧ t = u ∧ step u = .refused r) ∧
    ∀ (j : Nat) (s u : State), runFor j s = .running u → u.faultRecord = none → Aligned u.pc → Aligned u.endAddr →
      u.pc = u.endAddr → ∀ k, runFor (j + k + 1) s = .ended u

/-- R41, and program P6 of 95_test_vectors.md: two launches of the same words at different addresses, with END at the same distance
and the same registers, run alike: same kind of end, same registers, pcs at the same distance. DERIVED: decision D14; the
kinds of end, and the state a run stands at, are the model's (log 6, log 7). -/
def Obligations.RunsDoNotDependOnWhereTheProgramStands : Prop :=
  ∀ (k : Nat) (s s' : State), (∀ r, s.readReg r = s'.readReg r) → s.faultRecord = none → s'.faultRecord = none →
    Aligned s.pc → Aligned s'.pc → Aligned s.endAddr → Aligned s'.endAddr → s.endAddr - s.pc = s'.endAddr - s'.pc →
    (∀ j, j < k → s.program.word (s.pc + BitVec.ofNat 32 (4 * j)) = s'.program.word (s'.pc + BitVec.ofNat 32 (4 * j))) →
    (runFor k s).kind = (runFor k s').kind ∧
    (∀ r, (runFor k s).state.readReg r = (runFor k s').state.readReg r) ∧
    (runFor k s).state.pc - s.pc = (runFor k s').state.pc - s'.pc

/-- R41, R42, R45: placing a word makes it the word of that word address and leaves every other word alone. DERIVED: big-endian bytes
are decision D14, and placing stands for the loader outside the model (log 12). -/
def Obligations.PlacedWordIsTheWordFetched : Prop :=
  ∀ (m : Memory) (a w : Word), (m.placeWord a w).word (alignDown a) = some w ∧
    ∀ b : Word, b ≠ alignDown a → (m.placeWord a w).word b = m.word b

/-- R27, R239: State.withFetchWord makes the very next step execute the word it places, from any state, with every register kept;
where the state already fetches, pc and END are kept as well. DERIVED: the launch on one word is the model's (log 12). -/
def Obligations.PlacedInstructionIsTheNextToRun : Prop :=
  ∀ (s : State) (w : Word) (i : Instr), decode w = .instr i →
    step (s.withFetchWord 32 w.toNat) = exec i (s.withFetchWord 32 w.toNat) ∧
    (∀ r, (s.withFetchWord 32 w.toNat).readReg r = s.readReg r) ∧
    (Fetches s → (s.withFetchWord 32 w.toNat).pc = s.pc ∧ (s.withFetchWord 32 w.toNat).endAddr = s.endAddr)
end

