-- ==== Sys2Proof/Laws/Decode.lean ====
section
/-! SUPPORT. The laws of the encoding: fields of an encoded word, the opcode under the mask of the opcode table, words
and their bytes (spec R45, R61, R62, R67, R82). -/

namespace Sys2Proof

/-! ### fields of a canonical word -/

@[simp] theorem opField_encodeRRR (op : Opcode) (rr rx ry : RegNum) : opField (encodeRRR op rr rx ry) = op := by
  ext i hi
  simp [opField, encodeRRR, BitVec.getElem_extractLsb']
  grind

@[simp] theorem rxField_encodeRRR (op : Opcode) (rr rx ry : RegNum) : rxField (encodeRRR op rr rx ry) = rx := by
  ext i hi
  simp [rxField, encodeRRR, BitVec.getElem_extractLsb']
  grind

@[simp] theorem ryField_encodeRRR (op : Opcode) (rr rx ry : RegNum) : ryField (encodeRRR op rr rx ry) = ry := by
  ext i hi
  simp [ryField, encodeRRR, BitVec.getElem_extractLsb']
  grind

@[simp] theorem rrFieldRRR_encodeRRR (op : Opcode) (rr rx ry : RegNum) : rrFieldRRR (encodeRRR op rr rx ry) = rr := by
  ext i hi
  simp [rrFieldRRR, encodeRRR, BitVec.getElem_extractLsb']
  grind

@[simp] theorem opField_encodeRRI (op : Opcode) (rr rx : RegNum) (imm : Imm) :
    opField (encodeRRI op rr rx imm) = op := by
  ext i hi
  simp [opField, encodeRRI, BitVec.getElem_extractLsb']
  grind

@[simp] theorem rxField_encodeRRI (op : Opcode) (rr rx : RegNum) (imm : Imm) :
    rxField (encodeRRI op rr rx imm) = rx := by
  ext i hi
  simp [rxField, encodeRRI, BitVec.getElem_extractLsb']
  grind

@[simp] theorem rrFieldRRI_encodeRRI (op : Opcode) (rr rx : RegNum) (imm : Imm) :
    rrFieldRRI (encodeRRI op rr rx imm) = rr := by
  ext i hi
  simp [rrFieldRRI, encodeRRI, BitVec.getElem_extractLsb']
  grind

@[simp] theorem immField_encodeRRI (op : Opcode) (rr rx : RegNum) (imm : Imm) :
    immField (encodeRRI op rr rx imm) = imm := by
  ext i hi
  simp [immField, encodeRRI, BitVec.getElem_extractLsb']
  grind

@[simp] theorem shiftImmField_encodeRRI (op : Opcode) (rr rx : RegNum) (imm : Imm) :
    shiftImmField (encodeRRI op rr rx imm) = canonicalShiftImm imm := by
  ext i hi
  simp [shiftImmField, encodeRRI, canonicalShiftImm]
  grind

/-- A canonical shift immediate is its own canonical form (R73). -/
theorem canonicalShiftImm_eq {imm : Imm} (h : imm.isShiftAmount = true) : canonicalShiftImm imm = imm := by
  have h : imm.extractLsb' 5 11 = 0#11 := by simpa [Imm.isShiftAmount] using h
  ext i hi
  have hb := congrArg (fun v => v.getLsbD (i - 5)) h
  simp [canonicalShiftImm] at hb ⊢
  grind

@[simp] theorem canonicalShiftImm_idem (imm : Imm) :
    canonicalShiftImm (canonicalShiftImm imm) = canonicalShiftImm imm := by
  ext i hi
  simp [canonicalShiftImm]
  grind

/-- A canonical shift immediate passes the well-formedness check (R73). -/
theorem isShiftAmount_canonicalShiftImm (imm : Imm) : (canonicalShiftImm imm).isShiftAmount = true := by
  have h : (canonicalShiftImm imm).extractLsb' 5 11 = 0#11 := by
    ext i hi
    simp [canonicalShiftImm]
  simp [Imm.isShiftAmount, h]

theorem shiftImmField_eq (w : Word) : shiftImmField w = canonicalShiftImm (immField w) := by
  ext i hi
  simp [shiftImmField, canonicalShiftImm, immField]

/-! ### the opcode -/

/-- The opcode of a word whose bits under the mask 0xFC000000 are an opcode's (R67, R70). -/
theorem opField_of_mask {w bits : Word} (h : w &&& 0xFC000000#32 = bits) : opField w = opField bits := by
  subst h
  ext i hi
  have hbit : ∀ j : Fin 6, (0xFC000000#32 : Word).getLsbD (26 + j.1) = true := by decide
  simpa [opField] using fun _ => hbit ⟨i, hi⟩

/-! ### bytes of a word -/

/-- A word is its four bytes, the first one holding bits 31:24 (R45). -/
theorem wordOfBytes_byteOfWord (w : Word) :
    wordOfBytes (byteOfWord w 0) (byteOfWord w 1) (byteOfWord w 2) (byteOfWord w 3) = w := by
  ext i hi
  simp [wordOfBytes, byteOfWord]
  grind

/-- The decoder on the four bytes of a word, in memory order, is the decoder on the word (R45, R70). -/
theorem decodeBytes_byteOfWord (w : Word) (rest : List Byte) :
    decodeBytes (byteOfWord w 0 :: byteOfWord w 1 :: byteOfWord w 2 :: byteOfWord w 3 :: rest) =
      some (decode w, rest) := by
  simp [decodeBytes, wordOfBytes_byteOfWord]

end Sys2Proof
end

