-- ==== Sys2Proof/Laws/State.lean ====
section
/-! SUPPORT. One lemma per field per update of the state, and the laws of reading after writing (spec R11, R22). -/

namespace Sys2Proof.Machine

/-! ### writeReg -/

theorem writeReg_zero (s : State) (v : Word) : s.writeReg 0#5 v = s := by simp [State.writeReg]

@[simp] theorem writeReg_pc (s : State) (n : RegNum) (v : Word) : (s.writeReg n v).pc = s.pc := by
  unfold State.writeReg; split <;> rfl

@[simp] theorem writeReg_program (s : State) (n : RegNum) (v : Word) : (s.writeReg n v).program = s.program := by
  unfold State.writeReg; split <;> rfl

@[simp] theorem writeReg_endAddr (s : State) (n : RegNum) (v : Word) : (s.writeReg n v).endAddr = s.endAddr := by
  unfold State.writeReg; split <;> rfl

@[simp] theorem writeReg_faultRecord (s : State) (n : RegNum) (v : Word) :
    (s.writeReg n v).faultRecord = s.faultRecord := by
  unfold State.writeReg; split <;> rfl

/-! ### readReg -/

@[simp] theorem readReg_zero (s : State) : s.readReg 0#5 = 0#32 := by simp [State.readReg]

theorem regNum_toNat_ne_zero {n : RegNum} (h : n ≠ 0#5) : n.toNat ≠ 0 :=
  fun e => h (BitVec.eq_of_toNat_eq e)

/-- Reading the register just written gives the value, unless it is x[0] (R11, R22). -/
theorem readReg_writeReg_self (s : State) {n : RegNum} (h : n ≠ 0#5) (v : Word) :
    (s.writeReg n v).readReg n = v := by
  simp [State.readReg, State.writeReg, h]

/-- A write leaves every other register alone (R11). -/
theorem readReg_writeReg_ne (s : State) {n r : RegNum} (h : r ≠ n) (v : Word) :
    (s.writeReg n v).readReg r = s.readReg r := by
  unfold State.readReg State.writeReg
  split
  · rfl
  · rename_i hr
    split
    · rfl
    · rename_i hn
      have h1 := regNum_toNat_ne_zero hr
      have h2 := regNum_toNat_ne_zero hn
      have h3 : r.toNat ≠ n.toNat := fun e => h (BitVec.eq_of_toNat_eq e)
      exact Vector.getElem_set_ne (by have := n.isLt; omega) (by have := r.isLt; omega) (by omega)

/-- Reading any register after a write (R11, R22). -/
theorem readReg_writeReg (s : State) (n r : RegNum) (v : Word) :
    (s.writeReg n v).readReg r = if r = n ∧ n ≠ 0#5 then v else s.readReg r := by
  by_cases hn : n = 0#5
  · subst hn; simp [writeReg_zero]
  · by_cases hr : r = n
    · subst hr; simp [readReg_writeReg_self s hn, hn]
    · simp [readReg_writeReg_ne s hr, hr]

/-- Register reads depend on the register file alone. -/
theorem readReg_congr {s t : State} (h : s.gpr = t.gpr) (r : RegNum) : s.readReg r = t.readReg r := by
  simp only [State.readReg, h]

/-! ### advance -/

@[simp] theorem advance_gpr (s : State) : s.advance.gpr = s.gpr := rfl
@[simp] theorem advance_pc (s : State) : s.advance.pc = nextPc s.pc := rfl
@[simp] theorem advance_program (s : State) : s.advance.program = s.program := rfl
@[simp] theorem advance_endAddr (s : State) : s.advance.endAddr = s.endAddr := rfl
@[simp] theorem advance_faultRecord (s : State) : s.advance.faultRecord = s.faultRecord := rfl
@[simp] theorem advance_readReg (s : State) (r : RegNum) : s.advance.readReg r = s.readReg r := rfl

/-! ### recordFault -/

@[simp] theorem recordFault_gpr (s : State) (f : Fault) : (s.recordFault f).gpr = s.gpr := rfl
@[simp] theorem recordFault_pc (s : State) (f : Fault) : (s.recordFault f).pc = s.pc := rfl
@[simp] theorem recordFault_program (s : State) (f : Fault) : (s.recordFault f).program = s.program := rfl
@[simp] theorem recordFault_endAddr (s : State) (f : Fault) : (s.recordFault f).endAddr = s.endAddr := rfl
@[simp] theorem recordFault_faultRecord (s : State) (f : Fault) : (s.recordFault f).faultRecord = some f := rfl
@[simp] theorem recordFault_readReg (s : State) (f : Fault) (r : RegNum) :
    (s.recordFault f).readReg r = s.readReg r := rfl

/-! ### placeNext -/

@[simp] theorem placeNext_gpr (s : State) (w : Word) : (s.placeNext w).gpr = s.gpr := rfl
@[simp] theorem placeNext_pc (s : State) (w : Word) : (s.placeNext w).pc = alignDown s.pc := rfl
@[simp] theorem placeNext_program (s : State) (w : Word) :
    (s.placeNext w).program = s.program.placeWord (alignDown s.pc) w := rfl
@[simp] theorem placeNext_endAddr (s : State) (w : Word) : (s.placeNext w).endAddr =
    if alignDown s.endAddr = alignDown s.pc then nextPc (alignDown s.pc) else alignDown s.endAddr := rfl
@[simp] theorem placeNext_faultRecord (s : State) (w : Word) : (s.placeNext w).faultRecord = none := rfl
@[simp] theorem placeNext_readReg (s : State) (w : Word) (r : RegNum) :
    (s.placeNext w).readReg r = s.readReg r := rfl

/-! ### launch -/

@[simp] theorem launch_gpr (m : Memory) (e d : Word) (x : Vector Word 31) : (State.launch m e d x).gpr = x := rfl
@[simp] theorem launch_pc (m : Memory) (e d : Word) (x : Vector Word 31) : (State.launch m e d x).pc = e := rfl
@[simp] theorem launch_program (m : Memory) (e d : Word) (x : Vector Word 31) :
    (State.launch m e d x).program = m := rfl
@[simp] theorem launch_endAddr (m : Memory) (e d : Word) (x : Vector Word 31) :
    (State.launch m e d x).endAddr = d := rfl
@[simp] theorem launch_faultRecord (m : Memory) (e d : Word) (x : Vector Word 31) :
    (State.launch m e d x).faultRecord = none := rfl

/-! ### addresses -/

/-- The pc advance as arithmetic modulo 2^32 (R26). -/
theorem nextPc_toNat (a : Word) : (nextPc a).toNat = (a.toNat + 4) % 2 ^ 32 := by
  simp [nextPc, BitVec.toNat_add]

theorem nextPc_aligned {a : Word} (h : Aligned a) : Aligned (nextPc a) := by
  have := nextPc_toNat a
  unfold Aligned at *
  omega

theorem nextPc_ne (a : Word) : nextPc a ≠ a := by
  intro h
  have := congrArg BitVec.toNat h
  rw [nextPc_toNat] at this
  have := a.isLt
  omega

theorem alignDown_toNat (a : Word) : (alignDown a).toNat = a.toNat / 4 * 4 := by
  have := a.isLt
  rw [alignDown, BitVec.toNat_ofNat]
  exact Nat.mod_eq_of_lt (by omega)

theorem alignDown_aligned (a : Word) : Aligned (alignDown a) := by
  unfold Aligned
  rw [alignDown_toNat]
  omega

theorem alignDown_eq_self {a : Word} (h : Aligned a) : alignDown a = a := by
  apply BitVec.eq_of_toNat_eq
  rw [alignDown_toNat]
  unfold Aligned at h
  omega

end Sys2Proof.Machine
end

