-- ==== Sys2Proof/Laws/Exec.lean ====
section
/-! SUPPORT. Everything a shared operation and an instruction can do, said once: an instruction either completes with one
register write and the pc advance, or raises the Division by Zero Fault (spec R12, R13, R23, R120). -/

namespace Sys2Proof.Machine

/-! ### the shared operations -/

/-- A completion answers the written and advanced state, and nothing else (R12). -/
theorem complete_eq_next {s t : State} {rr : RegNum} {v : Word} :
    s.complete rr v = .next t ↔ t = (s.writeReg rr v).advance := by
  simp [State.complete, eq_comm]

/-- A divide with a divisor that is not 0 completes (R120). -/
theorem divide_of_ne {s : State} {z : Bool} (h : z = false) (rr : RegNum) (v : Word) :
    s.divide z rr v = s.complete rr v := by
  simp [State.divide, h]

/-- A divide with a divisor that is 0 raises the fault (R120). -/
theorem divide_of_zero {s : State} {z : Bool} (h : z = true) (rr : RegNum) (v : Word) :
    s.divide z rr v = s.raise .divisionByZero := by
  simp [State.divide, h]

/-- What a completed instruction leaves in a register (R22, R23). -/
theorem readReg_completed (s : State) (rr r : RegNum) (v : Word) :
    (s.writeReg rr v).advance.readReg r = if r = rr ∧ rr ≠ 0#5 then v else s.readReg r := by
  rw [advance_readReg, readReg_writeReg]

/-- An instruction whose meaning is one completion with a value that has `P` completes with `P` (R23). -/
theorem completes_of_complete {i : Instr} {s : State} {v : Word} {P : Word → Prop}
    (h : exec i s = s.complete i.dest v) (hP : i.dest ≠ 0#5 → P v) : Completes i s P := by
  refine ⟨_, h, fun hd => ?_, fun r hr => ?_⟩
  · rw [readReg_completed, if_pos ⟨rfl, hd⟩]
    exact hP hd
  · rw [readReg_completed, if_neg (fun hc => hr hc.1)]

/-- The same for a divide whose divisor is not 0 (R120). -/
theorem completes_of_divide {i : Instr} {s : State} {z : Bool} {v : Word} {P : Word → Prop}
    (h : exec i s = s.divide z i.dest v) (hz : z = false) (hP : i.dest ≠ 0#5 → P v) : Completes i s P :=
  completes_of_complete (h.trans (divide_of_ne hz _ _)) hP

/-! ### every instruction -/

/-- The two things an instruction can do: complete, its divisor not being 0, or raise the fault, its divisor being 0
(R23, R120, R208). -/
theorem exec_cases (i : Instr) (s : State) :
    (zeroDivisor i s = false ∧ ∃ v, exec i s = s.complete i.dest v) ∨
      (zeroDivisor i s = true ∧ exec i s = s.raise .divisionByZero) := by
  cases i
  case div | divu | rem | remu =>
    rename_i rr rx ry
    cases h : (s.readReg ry == 0#32)
    · exact .inl ⟨h, _, divide_of_ne h _ _⟩
    · exact .inr ⟨h, divide_of_zero h _ _⟩
  case divi | divui | remi | remui =>
    rename_i rr rx imm
    cases h : (imm == 0#16)
    · exact .inl ⟨h, _, divide_of_ne h _ _⟩
    · exact .inr ⟨h, divide_of_zero h _ _⟩
  all_goals exact .inl ⟨rfl, _, rfl⟩

/-- What is true of every next state an instruction gives (R12, R23). -/
theorem exec_next {i : Instr} {s t : State} (h : exec i s = .next t) :
    zeroDivisor i s = false ∧ ∃ v, t = (s.writeReg i.dest v).advance := by
  rcases exec_cases i s with ⟨hz, v, hv⟩ | ⟨_, hv⟩
  · exact ⟨hz, v, complete_eq_next.mp (hv ▸ h)⟩
  · rw [hv] at h
    cases h

/-- The only fault an instruction raises, and when (R200, R201). -/
theorem exec_fault {i : Instr} {s : State} {f : Fault} (h : exec i s = .fault f) :
    zeroDivisor i s = true ∧ f = .divisionByZero s.pc := by
  rcases exec_cases i s with ⟨_, v, hv⟩ | ⟨hz, hv⟩
  · rw [hv] at h
    cases h
  · rw [hv] at h
    exact ⟨hz, (Host.Outcome.fault.inj h).symm⟩

/-- No instruction is refused (R208). -/
theorem exec_not_refused (i : Instr) (s : State) (r : Refusal) : exec i s ≠ .refused r := by
  intro h
  rcases exec_cases i s with ⟨_, v, hv⟩ | ⟨_, hv⟩ <;> rw [hv] at h <;> cases h

end Sys2Proof.Machine
end

