-- ==== Sys2Proof/Laws/Memory.lean ====
section
/-! SUPPORT. The laws of PROGRAM as bytes: a byte read after a byte write, the canonical form every memory operation
keeps, and whole words (spec R40, R41, R45). -/

namespace Sys2Proof.Machine

/-- A byte read after a byte write: the byte written at its own address, the old byte elsewhere. -/
theorem readByte_writeByte (m : Memory) (a : Nat) (b : Byte) (x : Nat) :
    (m.writeByte a b).readByte x = if x = a then some b else m.readByte x := by
  induction m with
  | nil => by_cases h : a = x <;> simp [Memory.writeByte, Memory.readByte, h, eq_comm]
  | cons c m ih =>
    obtain ⟨k, v⟩ := c
    unfold Memory.writeByte
    split
    · by_cases h : x = a
      · simp [Memory.readByte, h]
      · simp [Memory.readByte, h, Ne.symm h]
    · split
      · rename_i _ h2
        subst h2
        by_cases h : x = a
        · simp [Memory.readByte, h]
        · simp [Memory.readByte, h, Ne.symm h]
      · rename_i _ h2
        simp only [Memory.readByte, ih]
        by_cases h : k = x
        · subst h; simp [Ne.symm h2]
        · simp [h]

/-- An address has a value exactly when some entry lists it. -/
theorem readByte_isSome (m : Memory) (x : Nat) : (m.readByte x).isSome = true ↔ ∃ c ∈ m, c.1 = x := by
  induction m with
  | nil => simp [Memory.readByte]
  | cons c m ih =>
    obtain ⟨k, v⟩ := c
    by_cases h : k = x
    · simp [Memory.readByte, h]
    · simp [Memory.readByte, h, ih]

/-- What a byte write lists: the address written, and what was listed. -/
theorem mem_writeByte {m : Memory} {a : Nat} {b : Byte} {c : Host.Cell} (h : c ∈ m.writeByte a b) :
    c = (a, b) ∨ c ∈ m := by
  induction m with
  | nil => exact .inl (List.mem_singleton.mp h)
  | cons d m ih =>
    obtain ⟨k, v⟩ := d
    unfold Memory.writeByte at h
    split at h
    · simpa using h
    · split at h
      · rcases List.mem_cons.mp h with h | h
        · exact .inl h
        · exact .inr (List.mem_cons_of_mem _ h)
      · rcases List.mem_cons.mp h with h | h
        · exact .inr (h ▸ List.mem_cons_self)
        · exact (ih h).imp id (List.mem_cons_of_mem _)

/-- The empty PROGRAM of the reset is canonical. -/
theorem wf_nil : Memory.wf [] := ⟨List.Pairwise.nil, fun _ hc => nomatch hc⟩

theorem pairwise_writeByte {m : Memory} (h : m.Pairwise (fun c d => c.1 < d.1)) (a : Nat) (b : Byte) :
    (m.writeByte a b).Pairwise (fun c d => c.1 < d.1) := by
  induction m with
  | nil => simp [Memory.writeByte]
  | cons d m ih =>
    obtain ⟨k, v⟩ := d
    obtain ⟨hk, hm⟩ := List.pairwise_cons.mp h
    unfold Memory.writeByte
    split
    · rename_i h1
      refine List.pairwise_cons.mpr ⟨fun c hc => ?_, h⟩
      rcases List.mem_cons.mp hc with rfl | hc
      · exact h1
      · exact Nat.lt_trans h1 (hk c hc)
    · split
      · rename_i _ h2
        subst h2
        exact List.pairwise_cons.mpr ⟨hk, hm⟩
      · rename_i h1 h2
        refine List.pairwise_cons.mpr ⟨fun c hc => ?_, ih hm⟩
        rcases mem_writeByte hc with rfl | hc
        · exact (by omega : k < a)
        · exact hk c hc

/-- A byte write inside the address space keeps the canonical form. -/
theorem wf_writeByte {m : Memory} (h : m.wf) {a : Nat} (ha : a < 2 ^ 32) (b : Byte) : (m.writeByte a b).wf := by
  refine ⟨pairwise_writeByte h.1 a b, fun c hc => ?_⟩
  rcases mem_writeByte hc with rfl | hc
  · exact ha
  · exact h.2 c hc

/-- Placing a word keeps the canonical form. -/
theorem wf_placeWord {m : Memory} (h : m.wf) (a w : Word) : (m.placeWord a w).wf := by
  have h1 := alignDown_toNat a
  have h2 := a.isLt
  unfold Memory.placeWord
  exact wf_writeByte (wf_writeByte (wf_writeByte (wf_writeByte h (by omega) _) (by omega) _) (by omega) _) (by omega) _

/-- A byte read after a word was placed: byte `k` of the word at `k` past its word address, the old byte elsewhere. -/
theorem readByte_placeWord (m : Memory) (a w : Word) (x : Nat) :
    (m.placeWord a w).readByte x =
      if x / 4 = a.toNat / 4 then some (byteOfWord w (x % 4)) else m.readByte x := by
  simp only [Memory.placeWord, readByte_writeByte, alignDown_toNat]
  have hx := Nat.div_add_mod x 4
  have hlt := Nat.mod_lt x (show 0 < 4 by omega)
  by_cases h : x / 4 = a.toNat / 4
  · rw [if_pos h, ← h]
    obtain h4 | h4 | h4 | h4 : x % 4 = 0 ∨ x % 4 = 1 ∨ x % 4 = 2 ∨ x % 4 = 3 := by omega
    · rw [if_neg (by omega), if_neg (by omega), if_neg (by omega), if_pos (by omega), h4]
    · rw [if_neg (by omega), if_neg (by omega), if_pos (by omega), h4]
    · rw [if_neg (by omega), if_pos (by omega), h4]
    · rw [if_pos (by omega), h4]
  · rw [if_neg h, if_neg (by omega), if_neg (by omega), if_neg (by omega), if_neg (by omega)]

/-- Placing a word keeps PROGRAM a map to whole words. -/
theorem wordComplete_placeWord {m : Memory} (h : m.wordComplete) (a w : Word) : (m.placeWord a w).wordComplete := by
  intro c hc k hk
  rw [readByte_placeWord]
  split
  · rfl
  · rename_i hne
    have hsome : ((m.placeWord a w).readByte c.1).isSome = true := (readByte_isSome _ _).mpr ⟨c, hc, rfl⟩
    rw [readByte_placeWord, if_neg (by omega)] at hsome
    obtain ⟨d, hd, hd1⟩ := (readByte_isSome _ _).mp hsome
    rw [← hd1]
    exact h d hd k hk

/-- Two canonical memories that read alike are the same data. -/
theorem eq_of_readByte_eq {m n : Memory} (hm : m.wf) (hn : n.wf) (h : ∀ x, m.readByte x = n.readByte x) : m = n := by
  have none_of_lt : ∀ {l : Memory} {x : Nat}, (∀ c ∈ l, x < c.1) → l.readByte x = none := fun {l x} hl => by
    by_contra hne
    obtain ⟨c, hc, rfl⟩ := (readByte_isSome l x).mp (Option.isSome_iff_ne_none.mpr hne)
    exact absurd (hl c hc) (Nat.lt_irrefl _)
  induction m generalizing n with
  | nil =>
    cases n with
    | nil => rfl
    | cons d n => have := h d.1; simp [Memory.readByte] at this
  | cons c m ih =>
    cases n with
    | nil => have := h c.1; simp [Memory.readByte] at this
    | cons d n =>
      obtain ⟨hc, hmp⟩ := List.pairwise_cons.mp hm.1
      obtain ⟨hd, hnp⟩ := List.pairwise_cons.mp hn.1
      obtain ⟨k, v⟩ := c
      obtain ⟨l, u⟩ := d
      have hkl : k = l := by
        rcases Nat.lt_trichotomy k l with hlt | heq | hgt
        · have h1 := h k
          rw [none_of_lt (l := (l, u) :: n) (x := k)] at h1
          · simp [Memory.readByte] at h1
          · intro e he
            rcases List.mem_cons.mp he with rfl | he
            · exact hlt
            · exact Nat.lt_trans hlt (hd e he)
        · exact heq
        · have h1 := h l
          rw [none_of_lt (l := (k, v) :: m) (x := l)] at h1
          · simp [Memory.readByte] at h1
          · intro e he
            rcases List.mem_cons.mp he with rfl | he
            · exact hgt
            · exact Nat.lt_trans hgt (hc e he)
      subst hkl
      have hvu : v = u := by simpa [Memory.readByte] using h k
      subst hvu
      have hmn : m = n := by
        refine ih ⟨hmp, fun e he => hm.2 e (List.mem_cons_of_mem _ he)⟩
          ⟨hnp, fun e he => hn.2 e (List.mem_cons_of_mem _ he)⟩ (fun x => ?_)
        by_cases hx : k = x
        · subst hx
          rw [none_of_lt hc, none_of_lt hd]
        · simpa [Memory.readByte, hx] using h x
      rw [hmn]

end Sys2Proof.Machine
end

