-- ==== Sys2Proof/Laws/Operands.lean ====
section
/-! SUPPORT. What each operand form and each arithmetic helper gives, in terms of naturals, integers and bits (spec R7
to R9, R64, R121, R130, R160). -/

namespace Sys2Proof.Machine

/-! ### truncation and extension -/

/-- `trunc32` keeps the residue modulo 2^32 (R8). -/
theorem trunc32_toNat (n : Int) : ((trunc32 n).toNat : Int) = n % 2 ^ 32 := by
  rw [trunc32, BitVec.toNat_ofInt]
  norm_num
  omega

/-- Truncation of a natural (R8). -/
theorem trunc32_natCast_toNat (n : Nat) : (trunc32 (n : Int)).toNat = n % 2 ^ 32 := by
  have := trunc32_toNat (n : Int)
  omega

/-- Two numbers that differ by a multiple of 2^32 have the same truncation (R8). -/
theorem trunc32_congr {m n : Int} (h : m % 2 ^ 32 = n % 2 ^ 32) : trunc32 m = trunc32 n := by
  apply BitVec.eq_of_toNat_eq
  have h1 := trunc32_toNat m
  have h2 := trunc32_toNat n
  omega

/-- Truncating a signed reading gives the word back (R7, R8). -/
theorem trunc32_signed (v : Word) : trunc32 (signed v) = v := BitVec.ofInt_toInt

/-- Truncating an unsigned reading gives the word back (R7, R8). -/
theorem trunc32_unsigned (v : Word) : trunc32 (unsigned v : Int) = v := by
  apply BitVec.eq_of_toNat_eq
  rw [trunc32_natCast_toNat]
  exact Nat.mod_eq_of_lt v.isLt

/-- The two readings of a word differ by a multiple of 2^32 (R7, R8). -/
theorem signed_emod (v : Word) : signed v % 2 ^ 32 = (unsigned v : Int) % 2 ^ 32 := by
  rw [← trunc32_toNat, ← trunc32_toNat, trunc32_signed, trunc32_unsigned]

theorem unsigned_lt (v : Word) : unsigned v < 2 ^ 32 := v.isLt

theorem signed_lt (v : Word) : signed v < 2 ^ 31 := by
  have := BitVec.toInt_lt (x := v)
  simpa [signed] using this

theorem le_signed (v : Word) : -2 ^ 31 ≤ signed v := by
  have := BitVec.le_toInt (x := v)
  simpa [signed] using this

/-- A number in the signed range survives truncation (R7, R8). -/
theorem signed_trunc32 {n : Int} (h1 : -2 ^ 31 ≤ n) (h2 : n < 2 ^ 31) : signed (trunc32 n) = n := by
  unfold signed trunc32
  rw [BitVec.toInt_ofInt, Int.bmod_def]
  norm_num at *
  omega

/-- Sign extension keeps the signed reading (R9). -/
@[simp] theorem signed_sext32 (i : Imm) : signed (sext32 i) = i.toInt := by
  simp only [signed, sext32]
  exact BitVec.toInt_signExtend_of_le (by omega)

/-- Zero extension keeps the unsigned reading (R9). -/
@[simp] theorem unsigned_zext32 (i : Imm) : unsigned (zext32 i) = i.toNat := by
  simp only [unsigned, zext32, BitVec.truncate_eq_setWidth, BitVec.toNat_setWidth]
  exact Nat.mod_eq_of_lt (by have := i.isLt; omega)

/-- The bits of a zero-extended immediate: bits 31:16 are 0 (R9). -/
theorem zext32_getLsbD (i : Imm) (k : Nat) : (zext32 i).getLsbD k = i.getLsbD k := by
  simp only [zext32, BitVec.truncate_eq_setWidth, BitVec.getLsbD_setWidth]
  by_cases h : k < 32
  · simp [h]
  · simp [h, BitVec.getLsbD_of_ge i k (by omega)]

/-- Testing the immediate and testing the sign-extended operand are the same test (R120). -/
theorem toInt_eq_zero_iff (i : Imm) : i.toInt = 0 ↔ i = 0#16 := by
  constructor
  · intro h
    exact BitVec.eq_of_toInt_eq (by rw [h]; decide)
  · rintro rfl
    decide

/-- The bits of LDHI's operand (R180). -/
theorem placeHigh_getLsbD (i : Imm) (k : Nat) :
    (placeHigh i).getLsbD k = if k < 16 then false else i.getLsbD (k - 16) := by
  simp only [placeHigh]
  rw [BitVec.getLsbD_append]
  simp

/-- The bits of an XNOR (R146). -/
theorem xnorWord_getLsbD (a b : Word) {k : Nat} (hk : k < 32) :
    (xnorWord a b).getLsbD k = (a.getLsbD k == b.getLsbD k) := by
  simp only [xnorWord, BitVec.getLsbD_not, BitVec.getLsbD_xor, hk]
  cases a.getLsbD k <;> cases b.getLsbD k <;> rfl

/-! ### shifts -/

/-- The amount of a register shift: n shifts by n mod 32 (R160). -/
theorem shiftOfReg_eq (y : Word) : shiftOfReg y = y.toNat % 32 := by simp [shiftOfReg]

/-- The amount of an immediate shift: n shifts by n mod 32 (R160). -/
theorem shiftOfImm_eq (i : Imm) : shiftOfImm i = i.toNat % 32 := by simp [shiftOfImm]

/-- The bits of a left shift (R161). -/
theorem shiftLeft_getLsbD (v : Word) (n : Nat) {k : Nat} (hk : k < 32) :
    (shiftLeft v n).getLsbD k = if n ≤ k then v.getLsbD (k - n) else false := by
  simp [shiftLeft, hk]
  grind

/-- The bits of a logical right shift (R163). -/
theorem shiftRightLogical_getLsbD (v : Word) (n k : Nat) :
    (shiftRightLogical v n).getLsbD k = if k + n < 32 then v.getLsbD (k + n) else false := by
  simp [shiftRightLogical, Nat.add_comm]
  grind

/-- The bits of an arithmetic right shift (R165). -/
theorem shiftRightArith_getLsbD (v : Word) (n : Nat) {k : Nat} (hk : k < 32) :
    (shiftRightArith v n).getLsbD k = if k + n < 32 then v.getLsbD (k + n) else v.getLsbD 31 := by
  simp only [shiftRightArith]
  rw [BitVec.getLsbD_sshiftRight]
  simp [hk, Nat.add_comm, BitVec.msb_eq_getLsbD_last]

/-! ### quotients and remainders -/

/-- The size of the signed quotient: |q| = floor(|a| / |b|) (R121). -/
theorem natAbs_sdiv (a b : Int) : (sdiv a b).natAbs = a.natAbs / b.natAbs := Int.natAbs_tdiv a b

/-- The sign of the signed quotient for operands of the same sign (R121). -/
theorem sdiv_nonneg {a b : Int} (h : 0 ≤ a * b) : 0 ≤ sdiv a b := by
  rcases lt_trichotomy b 0 with hb | rfl | hb
  · exact Int.tdiv_nonneg_of_nonpos_of_nonpos (by nlinarith) hb.le
  · simp [sdiv, quotient, Config.sdivRounding]
  · exact Int.tdiv_nonneg (by nlinarith) hb.le

/-- The sign of the signed quotient for operands of opposite sign (R121). -/
theorem sdiv_nonpos {a b : Int} (h : a * b ≤ 0) : sdiv a b ≤ 0 := by
  rcases lt_trichotomy b 0 with hb | rfl | hb
  · have : 0 ≤ sdiv (-a) b := sdiv_nonneg (by nlinarith)
    simp only [sdiv, quotient, Config.sdivRounding, Int.neg_tdiv] at *
    omega
  · simp [sdiv, quotient, Config.sdivRounding]
  · have : 0 ≤ sdiv (-a) b := sdiv_nonneg (by nlinarith)
    simp only [sdiv, quotient, Config.sdivRounding, Int.neg_tdiv] at *
    omega

/-- Quotient and remainder fit together, under either rounding (R121, R132). -/
theorem quotient_identity (r : SDivRounding) (a b : Int) (hb : b ≠ 0) :
    ∃ m, a = b * quotient r a b + m ∧ m.natAbs < b.natAbs := by
  cases r with
  | towardZero =>
    refine ⟨a.tmod b, (Int.mul_tdiv_add_tmod a b).symm, ?_⟩
    rw [Int.natAbs_tmod]
    exact Nat.mod_lt _ (Int.natAbs_pos.mpr hb)
  | floor =>
    refine ⟨a.fmod b, (Int.mul_fdiv_add_fmod a b).symm, ?_⟩
    rcases lt_or_gt_of_ne hb with h | h
    · have h1 := Int.fmod_nonneg_of_pos (-a) (show 0 < -b by omega)
      have h2 := Int.fmod_lt_of_pos (-a) (show 0 < -b by omega)
      rw [Int.neg_fmod_neg] at h1 h2
      omega
    · have h1 := Int.fmod_nonneg_of_pos a h
      have h2 := Int.fmod_lt_of_pos a h
      omega

/-- The signed remainder is the truncating remainder of integers (R121). -/
theorem srem_eq_tmod (a b : Int) : srem a b = a.tmod b := by
  have := Int.mul_tdiv_add_tmod a b
  simp only [srem, sdiv, quotient, Config.sdivRounding]
  omega

/-- The signed remainder is smaller than the divisor (R121). -/
theorem natAbs_srem_lt (a : Int) {b : Int} (hb : b ≠ 0) : (srem a b).natAbs < b.natAbs := by
  rw [srem_eq_tmod, Int.natAbs_tmod]
  exact Nat.mod_lt _ (Int.natAbs_pos.mpr hb)

/-- The signed remainder is 0 or has the sign of the dividend (R121). -/
theorem srem_sign (a b : Int) : srem a b = 0 ∨ (srem a b < 0 ↔ a < 0) := by
  rw [srem_eq_tmod]
  rcases lt_or_ge a 0 with h | h
  · have := Int.tmod_nonneg b (show 0 ≤ -a by omega)
    rw [Int.neg_tmod] at this
    omega
  · have := Int.tmod_nonneg b h
    omega

/-- The unsigned remainder (R130). -/
theorem urem_eq (a b : Nat) : urem a b = a % b := by
  have := Nat.div_add_mod a b
  simp only [urem, udiv]
  omega

end Sys2Proof.Machine
end

