-- ==== Sys2Proof/Laws/PerInstr.lean ====
section
/-! SUPPORT. Statements about every instruction as syntax, one lemma per constructor (LAWS.json names the families). -/

namespace Sys2Proof.Laws

/-- Family RoundTrip: decoding the canonical word of a well-formed instruction gives the instruction (R82). -/
def RoundTrip.Statement (i : Instr) : Prop := i.wellFormed = true → decode (encode i) = .instr i

theorem RoundTrip.add (rr rx ry : RegNum) : RoundTrip.Statement (.add rr rx ry) :=
  fun _ => by simp [decode, encode]

theorem RoundTrip.addi (rr rx : RegNum) (imm : Imm) : RoundTrip.Statement (.addi rr rx imm) :=
  fun _ => by simp [decode, encode]

theorem RoundTrip.sub (rr rx ry : RegNum) : RoundTrip.Statement (.sub rr rx ry) :=
  fun _ => by simp [decode, encode]

theorem RoundTrip.subi (rr rx : RegNum) (imm : Imm) : RoundTrip.Statement (.subi rr rx imm) :=
  fun _ => by simp [decode, encode]

theorem RoundTrip.mul (rr rx ry : RegNum) : RoundTrip.Statement (.mul rr rx ry) :=
  fun _ => by simp [decode, encode]

theorem RoundTrip.muli (rr rx : RegNum) (imm : Imm) : RoundTrip.Statement (.muli rr rx imm) :=
  fun _ => by simp [decode, encode]

theorem RoundTrip.mulu (rr rx ry : RegNum) : RoundTrip.Statement (.mulu rr rx ry) :=
  fun _ => by simp [decode, encode]

theorem RoundTrip.mului (rr rx : RegNum) (imm : Imm) : RoundTrip.Statement (.mului rr rx imm) :=
  fun _ => by simp [decode, encode]

theorem RoundTrip.div (rr rx ry : RegNum) : RoundTrip.Statement (.div rr rx ry) :=
  fun _ => by simp [decode, encode]

theorem RoundTrip.divi (rr rx : RegNum) (imm : Imm) : RoundTrip.Statement (.divi rr rx imm) :=
  fun _ => by simp [decode, encode]

theorem RoundTrip.divu (rr rx ry : RegNum) : RoundTrip.Statement (.divu rr rx ry) :=
  fun _ => by simp [decode, encode]

theorem RoundTrip.divui (rr rx : RegNum) (imm : Imm) : RoundTrip.Statement (.divui rr rx imm) :=
  fun _ => by simp [decode, encode]

theorem RoundTrip.rem (rr rx ry : RegNum) : RoundTrip.Statement (.rem rr rx ry) :=
  fun _ => by simp [decode, encode]

theorem RoundTrip.remi (rr rx : RegNum) (imm : Imm) : RoundTrip.Statement (.remi rr rx imm) :=
  fun _ => by simp [decode, encode]

theorem RoundTrip.remu (rr rx ry : RegNum) : RoundTrip.Statement (.remu rr rx ry) :=
  fun _ => by simp [decode, encode]

theorem RoundTrip.remui (rr rx : RegNum) (imm : Imm) : RoundTrip.Statement (.remui rr rx imm) :=
  fun _ => by simp [decode, encode]

theorem RoundTrip.and (rr rx ry : RegNum) : RoundTrip.Statement (.and rr rx ry) :=
  fun _ => by simp [decode, encode]

theorem RoundTrip.andi (rr rx : RegNum) (imm : Imm) : RoundTrip.Statement (.andi rr rx imm) :=
  fun _ => by simp [decode, encode]

theorem RoundTrip.or (rr rx ry : RegNum) : RoundTrip.Statement (.or rr rx ry) :=
  fun _ => by simp [decode, encode]

theorem RoundTrip.ori (rr rx : RegNum) (imm : Imm) : RoundTrip.Statement (.ori rr rx imm) :=
  fun _ => by simp [decode, encode]

theorem RoundTrip.xor (rr rx ry : RegNum) : RoundTrip.Statement (.xor rr rx ry) :=
  fun _ => by simp [decode, encode]

theorem RoundTrip.xori (rr rx : RegNum) (imm : Imm) : RoundTrip.Statement (.xori rr rx imm) :=
  fun _ => by simp [decode, encode]

theorem RoundTrip.xnor (rr rx ry : RegNum) : RoundTrip.Statement (.xnor rr rx ry) :=
  fun _ => by simp [decode, encode]

theorem RoundTrip.xnori (rr rx : RegNum) (imm : Imm) : RoundTrip.Statement (.xnori rr rx imm) :=
  fun _ => by simp [decode, encode]

theorem RoundTrip.sll (rr rx ry : RegNum) : RoundTrip.Statement (.sll rr rx ry) :=
  fun _ => by simp [decode, encode]

theorem RoundTrip.slli (rr rx : RegNum) (imm : Imm) : RoundTrip.Statement (.slli rr rx imm) :=
  fun h => by simp [decode, encode, canonicalShiftImm_eq h]

theorem RoundTrip.slr (rr rx ry : RegNum) : RoundTrip.Statement (.slr rr rx ry) :=
  fun _ => by simp [decode, encode]

theorem RoundTrip.slri (rr rx : RegNum) (imm : Imm) : RoundTrip.Statement (.slri rr rx imm) :=
  fun h => by simp [decode, encode, canonicalShiftImm_eq h]

theorem RoundTrip.sar (rr rx ry : RegNum) : RoundTrip.Statement (.sar rr rx ry) :=
  fun _ => by simp [decode, encode]

theorem RoundTrip.sari (rr rx : RegNum) (imm : Imm) : RoundTrip.Statement (.sari rr rx imm) :=
  fun h => by simp [decode, encode, canonicalShiftImm_eq h]

theorem RoundTrip.ldhi (rr : RegNum) (imm : Imm) : RoundTrip.Statement (.ldhi rr imm) :=
  fun _ => by simp [decode, encode]

end Sys2Proof.Laws
end

