-- ==== Sys2Proof/Laws/Step.lean ====
section
/-! SUPPORT. Everything a step can do, said once, and the small lemmas of a run (spec R27, R203, R209, R238). -/

namespace Sys2Proof.Machine

/-! ### what comes before the instruction -/

/-- What a step finds where it fetches: the verdict on the word at the pc, or none there (R27, R42, R43). -/
theorem front_of_fetches {s : State} (h : Fetches s) :
    s.front = match s.program.word s.pc with
      | none => .stop (.refused (.noWordAt s.pc))
      | some w => s.decoded w := by
  obtain ⟨h1, h2, h3, h4⟩ := h
  unfold State.front
  rw [h1]
  exact (if_neg (not_not.mpr ⟨h2, h3⟩)).trans (if_neg h4)

/-- A step of a state whose fault is recorded is that fault, and no further step (R203). -/
theorem front_of_record {s : State} {f : Fault} (h : s.faultRecord = some f) : s.front = .stop (.fault f) := by
  unfold State.front
  rw [h]

/-- What a step does with the word it has fetched (R27 (3), (4)). -/
theorem step_of_word {s : State} (h : Fetches s) {w : Word} (hw : s.program.word s.pc = some w) :
    step s = match s.decoded w with
      | .run i => exec i s
      | .stop o => o := by
  have hf : s.front = s.decoded w := by
    rw [front_of_fetches h, hw]
  unfold step
  generalize s.front = f at hf
  subst hf
  cases s.decoded w <;> rfl

/-- A step that answers a next state has fetched an instruction and executed it (R27). -/
theorem step_next {s t : State} (h : step s = .next t) :
    Fetches s ∧ ∃ w i, s.program.word s.pc = some w ∧ decode w = .instr i ∧ exec i s = .next t := by
  unfold step at h
  split at h
  · rename_i i hf
    unfold State.front at hf
    split at hf
    · cases hf
    · rename_i hr
      split at hf
      · cases hf
      · rename_i ha
        split at hf
        · cases hf
        · rename_i he
          refine ⟨⟨hr, (not_not.mp ha).1, (not_not.mp ha).2, he⟩, ?_⟩
          split at hf
          · cases hf
          · rename_i w hw
            unfold State.decoded at hf
            split at hf
            · rename_i j hj
              cases hf
              exact ⟨w, _, hw, hj, h⟩
            · cases hf
            · cases hf
  · rename_i o hf
    subst h
    unfold State.front at hf
    split at hf
    · cases hf
    · split at hf
      · cases hf
      · split at hf
        · cases hf
        · split at hf
          · cases hf
          · unfold State.decoded at hf
            split at hf <;> cases hf

/-- A completed step: the pc has advanced, one register may have changed, and nothing else has (R23, R26). -/
theorem step_next_frame {s t : State} (h : step s = .next t) :
    t.pc = nextPc s.pc ∧ t.program = s.program ∧ t.endAddr = s.endAddr ∧ t.faultRecord = s.faultRecord := by
  obtain ⟨_, w, i, _, _, hx⟩ := step_next h
  obtain ⟨_, v, rfl⟩ := exec_next hx
  simp

/-! ### runs -/

@[simp] theorem runFor_zero (s : State) : runFor 0 s = .running s := rfl

theorem runFor_next {s t : State} (h : step s = .next t) (k : Nat) : runFor (k + 1) s = runFor k t := by
  simp [runFor, h]

theorem runFor_fault {s : State} {f : Fault} (h : step s = .fault f) (k : Nat) :
    runFor (k + 1) s = .faulted f (s.recordFault f) := by
  simp [runFor, h]

theorem runFor_runOver {s : State} (h : step s = .refused .runOver) (k : Nat) : runFor (k + 1) s = .ended s := by
  simp [runFor, h]

theorem runFor_stuck {s : State} {p : Word} (h : step s = .refused (.noWordAt p)) (k : Nat) :
    runFor (k + 1) s = .stuck s := by
  simp [runFor, h]

end Sys2Proof.Machine
end

