-- ==== Sys2Proof/Machine/Flags.lean ====
section
/-! DEFINITION. The machine has no status flags, no condition codes and no predicate register (spec R28; UNVERIFIED, log 17): no
instruction computes or writes one, so there is no flag computation to define here. -/
end

