-- ==== Sys2Proof/Tests/Slice0.lean ====
section
/-! SUPPORT. The model's own tests: words written out from the spec's encodings, results of single instructions and steps from
the vectors of spec/95_test_vectors.md, the well-formedness smoke test, and a witness for every statement with hypotheses. -/

namespace Sys2Proof.Machine.Tests

/-! ### helpers -/

/-- A launch at 0x1000 with END at 0x2000, x[1] = a, x[2] = b and 0xA5A50000 + n in every other x[n] (start states of
95_test_vectors.md section 3). -/
def regs (a b : Word) : State :=
  State.launch [] 0x00001000#32 0x00002000#32
    (Vector.ofFn fun n => if n.1 = 0 then a else if n.1 = 1 then b else 0xA5A50000#32 + BitVec.ofNat 32 (n.1 + 1))

/-- The same launch with one word in PROGRAM, at the pc. -/
def onWord (w a b : Word) : State :=
  { regs a b with program := Memory.placeWord [] 0x00001000#32 w }

/-- The value a completed instruction leaves in x[n]. -/
def valueIn (n : RegNum) : Result → Option Word
  | .next s => some (s.readReg n)
  | .fault _ | .refused _ => none

/-- The pc a completed instruction leaves. -/
def pcOf : Result → Option Word
  | .next s => some s.pc
  | .fault _ | .refused _ => none

/-- The fault of an outcome. -/
def faultOf : Result → Option Fault
  | .fault f => some f
  | .next _ | .refused _ => none

/-- The refusal of an outcome. -/
def refusalOf : Result → Option Refusal
  | .refused r => some r
  | .next _ | .fault _ => none

/-! ### well-formedness: an ill-formed term for the one check -/

/-- A shift immediate with a bit of 15:5 set has no canonical word (R73). -/
theorem test_wellFormed_refuses_shift_immediate :
    (Instr.slli 3 1 0x0020#16).wellFormed = false ∧ (Instr.slri 3 1 0x8000#16).wellFormed = false ∧
      (Instr.sari 3 1 0xFFE1#16).wellFormed = false := by decide

theorem test_wellFormed_accepts_every_amount :
    (Instr.slli 31 31 0x001F#16).wellFormed = true ∧ (Instr.sari 0 0 0#16).wellFormed = true ∧
      (Instr.addi 3 1 0xFFFF#16).wellFormed = true := by decide

/-! ### decoding, encoding and assembling, one word per instruction (95_test_vectors.md 2.14) -/

theorem test_decode_add :
    decode 0x00221800#32 = .instr (.add 3 1 2) ∧ encode (.add 3 1 2) = 0x00221800#32 ∧
      decodeTableWord 32 0x00221800 = some (.add 3 1 2) ∧ assemble "add" [.reg 3, .reg 1, .reg 2] = some (.add 3 1 2) := by decide

theorem test_decode_addi :
    decode 0x04238001#32 = .instr (.addi 3 1 0x8001#16) ∧ encode (.addi 3 1 0x8001#16) = 0x04238001#32 ∧
      decodeTableWord 32 0x04238001 = some (.addi 3 1 0x8001#16) ∧ assemble "addi" [.reg 3, .reg 1, .num (-32767)] = some (.addi 3 1 0x8001#16) := by decide

theorem test_decode_sub :
    decode 0x08221800#32 = .instr (.sub 3 1 2) ∧ encode (.sub 3 1 2) = 0x08221800#32 ∧
      decodeTableWord 32 0x08221800 = some (.sub 3 1 2) ∧ assemble "sub" [.reg 3, .reg 1, .reg 2] = some (.sub 3 1 2) := by decide

theorem test_decode_subi :
    decode 0x0C238001#32 = .instr (.subi 3 1 0x8001#16) ∧ encode (.subi 3 1 0x8001#16) = 0x0C238001#32 ∧
      decodeTableWord 32 0x0C238001 = some (.subi 3 1 0x8001#16) ∧ assemble "subi" [.reg 3, .reg 1, .num (-32767)] = some (.subi 3 1 0x8001#16) := by decide

theorem test_decode_mul :
    decode 0x10221800#32 = .instr (.mul 3 1 2) ∧ encode (.mul 3 1 2) = 0x10221800#32 ∧
      decodeTableWord 32 0x10221800 = some (.mul 3 1 2) ∧ assemble "mul" [.reg 3, .reg 1, .reg 2] = some (.mul 3 1 2) := by decide

theorem test_decode_muli :
    decode 0x14238001#32 = .instr (.muli 3 1 0x8001#16) ∧ encode (.muli 3 1 0x8001#16) = 0x14238001#32 ∧
      decodeTableWord 32 0x14238001 = some (.muli 3 1 0x8001#16) ∧ assemble "muli" [.reg 3, .reg 1, .num (-32767)] = some (.muli 3 1 0x8001#16) := by decide

theorem test_decode_mulu :
    decode 0x18221800#32 = .instr (.mulu 3 1 2) ∧ encode (.mulu 3 1 2) = 0x18221800#32 ∧
      decodeTableWord 32 0x18221800 = some (.mulu 3 1 2) ∧ assemble "mulu" [.reg 3, .reg 1, .reg 2] = some (.mulu 3 1 2) := by decide

theorem test_decode_mului :
    decode 0x1C238001#32 = .instr (.mului 3 1 0x8001#16) ∧ encode (.mului 3 1 0x8001#16) = 0x1C238001#32 ∧
      decodeTableWord 32 0x1C238001 = some (.mului 3 1 0x8001#16) ∧ assemble "mului" [.reg 3, .reg 1, .num 0x8001] = some (.mului 3 1 0x8001#16) := by decide

theorem test_decode_div :
    decode 0x20221800#32 = .instr (.div 3 1 2) ∧ encode (.div 3 1 2) = 0x20221800#32 ∧
      decodeTableWord 32 0x20221800 = some (.div 3 1 2) ∧ assemble "div" [.reg 3, .reg 1, .reg 2] = some (.div 3 1 2) := by decide

theorem test_decode_divi :
    decode 0x24238001#32 = .instr (.divi 3 1 0x8001#16) ∧ encode (.divi 3 1 0x8001#16) = 0x24238001#32 ∧
      decodeTableWord 32 0x24238001 = some (.divi 3 1 0x8001#16) ∧ assemble "divi" [.reg 3, .reg 1, .num (-32767)] = some (.divi 3 1 0x8001#16) := by decide

theorem test_decode_divu :
    decode 0x28221800#32 = .instr (.divu 3 1 2) ∧ encode (.divu 3 1 2) = 0x28221800#32 ∧
      decodeTableWord 32 0x28221800 = some (.divu 3 1 2) ∧ assemble "divu" [.reg 3, .reg 1, .reg 2] = some (.divu 3 1 2) := by decide

theorem test_decode_divui :
    decode 0x2C238001#32 = .instr (.divui 3 1 0x8001#16) ∧ encode (.divui 3 1 0x8001#16) = 0x2C238001#32 ∧
      decodeTableWord 32 0x2C238001 = some (.divui 3 1 0x8001#16) ∧ assemble "divui" [.reg 3, .reg 1, .num 0x8001] = some (.divui 3 1 0x8001#16) := by decide

theorem test_decode_rem :
    decode 0x30221800#32 = .instr (.rem 3 1 2) ∧ encode (.rem 3 1 2) = 0x30221800#32 ∧
      decodeTableWord 32 0x30221800 = some (.rem 3 1 2) ∧ assemble "rem" [.reg 3, .reg 1, .reg 2] = some (.rem 3 1 2) := by decide

theorem test_decode_remi :
    decode 0x34238001#32 = .instr (.remi 3 1 0x8001#16) ∧ encode (.remi 3 1 0x8001#16) = 0x34238001#32 ∧
      decodeTableWord 32 0x34238001 = some (.remi 3 1 0x8001#16) ∧ assemble "remi" [.reg 3, .reg 1, .num (-32767)] = some (.remi 3 1 0x8001#16) := by decide

theorem test_decode_remu :
    decode 0x38221800#32 = .instr (.remu 3 1 2) ∧ encode (.remu 3 1 2) = 0x38221800#32 ∧
      decodeTableWord 32 0x38221800 = some (.remu 3 1 2) ∧ assemble "remu" [.reg 3, .reg 1, .reg 2] = some (.remu 3 1 2) := by decide

theorem test_decode_remui :
    decode 0x3C238001#32 = .instr (.remui 3 1 0x8001#16) ∧ encode (.remui 3 1 0x8001#16) = 0x3C238001#32 ∧
      decodeTableWord 32 0x3C238001 = some (.remui 3 1 0x8001#16) ∧ assemble "remui" [.reg 3, .reg 1, .num 0x8001] = some (.remui 3 1 0x8001#16) := by decide

theorem test_decode_and :
    decode 0x40221800#32 = .instr (.and 3 1 2) ∧ encode (.and 3 1 2) = 0x40221800#32 ∧
      decodeTableWord 32 0x40221800 = some (.and 3 1 2) ∧ assemble "and" [.reg 3, .reg 1, .reg 2] = some (.and 3 1 2) := by decide

theorem test_decode_andi :
    decode 0x44238001#32 = .instr (.andi 3 1 0x8001#16) ∧ encode (.andi 3 1 0x8001#16) = 0x44238001#32 ∧
      decodeTableWord 32 0x44238001 = some (.andi 3 1 0x8001#16) ∧ assemble "andi" [.reg 3, .reg 1, .num 0x8001] = some (.andi 3 1 0x8001#16) := by decide

theorem test_decode_or :
    decode 0x48221800#32 = .instr (.or 3 1 2) ∧ encode (.or 3 1 2) = 0x48221800#32 ∧
      decodeTableWord 32 0x48221800 = some (.or 3 1 2) ∧ assemble "or" [.reg 3, .reg 1, .reg 2] = some (.or 3 1 2) := by decide

theorem test_decode_ori :
    decode 0x4C238001#32 = .instr (.ori 3 1 0x8001#16) ∧ encode (.ori 3 1 0x8001#16) = 0x4C238001#32 ∧
      decodeTableWord 32 0x4C238001 = some (.ori 3 1 0x8001#16) ∧ assemble "ori" [.reg 3, .reg 1, .num 0x8001] = some (.ori 3 1 0x8001#16) := by decide

theorem test_decode_xor :
    decode 0x50221800#32 = .instr (.xor 3 1 2) ∧ encode (.xor 3 1 2) = 0x50221800#32 ∧
      decodeTableWord 32 0x50221800 = some (.xor 3 1 2) ∧ assemble "xor" [.reg 3, .reg 1, .reg 2] = some (.xor 3 1 2) := by decide

theorem test_decode_xori :
    decode 0x54238001#32 = .instr (.xori 3 1 0x8001#16) ∧ encode (.xori 3 1 0x8001#16) = 0x54238001#32 ∧
      decodeTableWord 32 0x54238001 = some (.xori 3 1 0x8001#16) ∧ assemble "xori" [.reg 3, .reg 1, .num 0x8001] = some (.xori 3 1 0x8001#16) := by decide

theorem test_decode_xnor :
    decode 0x58221800#32 = .instr (.xnor 3 1 2) ∧ encode (.xnor 3 1 2) = 0x58221800#32 ∧
      decodeTableWord 32 0x58221800 = some (.xnor 3 1 2) ∧ assemble "xnor" [.reg 3, .reg 1, .reg 2] = some (.xnor 3 1 2) := by decide

theorem test_decode_xnori :
    decode 0x5C238001#32 = .instr (.xnori 3 1 0x8001#16) ∧ encode (.xnori 3 1 0x8001#16) = 0x5C238001#32 ∧
      decodeTableWord 32 0x5C238001 = some (.xnori 3 1 0x8001#16) ∧ assemble "xnori" [.reg 3, .reg 1, .num 0x8001] = some (.xnori 3 1 0x8001#16) := by decide

theorem test_decode_sll :
    decode 0x60221800#32 = .instr (.sll 3 1 2) ∧ encode (.sll 3 1 2) = 0x60221800#32 ∧
      decodeTableWord 32 0x60221800 = some (.sll 3 1 2) ∧ assemble "sll" [.reg 3, .reg 1, .reg 2] = some (.sll 3 1 2) := by decide

theorem test_decode_slli :
    decode 0x64230011#32 = .instr (.slli 3 1 0x0011#16) ∧ encode (.slli 3 1 0x0011#16) = 0x64230011#32 ∧
      decodeTableWord 32 0x64230011 = some (.slli 3 1 0x0011#16) ∧ assemble "slli" [.reg 3, .reg 1, .num 17] = some (.slli 3 1 0x0011#16) := by decide

theorem test_decode_slr :
    decode 0x68221800#32 = .instr (.slr 3 1 2) ∧ encode (.slr 3 1 2) = 0x68221800#32 ∧
      decodeTableWord 32 0x68221800 = some (.slr 3 1 2) ∧ assemble "slr" [.reg 3, .reg 1, .reg 2] = some (.slr 3 1 2) := by decide

theorem test_decode_slri :
    decode 0x6C230011#32 = .instr (.slri 3 1 0x0011#16) ∧ encode (.slri 3 1 0x0011#16) = 0x6C230011#32 ∧
      decodeTableWord 32 0x6C230011 = some (.slri 3 1 0x0011#16) ∧ assemble "slri" [.reg 3, .reg 1, .num 17] = some (.slri 3 1 0x0011#16) := by decide

theorem test_decode_sar :
    decode 0x70221800#32 = .instr (.sar 3 1 2) ∧ encode (.sar 3 1 2) = 0x70221800#32 ∧
      decodeTableWord 32 0x70221800 = some (.sar 3 1 2) ∧ assemble "sar" [.reg 3, .reg 1, .reg 2] = some (.sar 3 1 2) := by decide

theorem test_decode_sari :
    decode 0x74230011#32 = .instr (.sari 3 1 0x0011#16) ∧ encode (.sari 3 1 0x0011#16) = 0x74230011#32 ∧
      decodeTableWord 32 0x74230011 = some (.sari 3 1 0x0011#16) ∧ assemble "sari" [.reg 3, .reg 1, .num 17] = some (.sari 3 1 0x0011#16) := by decide

theorem test_decode_ldhi :
    decode 0x7C03BEEF#32 = .instr (.ldhi 3 0xBEEF#16) ∧ encode (.ldhi 3 0xBEEF#16) = 0x7C03BEEF#32 ∧
      decodeTableWord 32 0x7C03BEEF = some (.ldhi 3 0xBEEF#16) ∧ assemble "ldhi" [.reg 3, .num 0xBEEF] = some (.ldhi 3 0xBEEF#16) := by decide

/-! ### the places of the fields and the decoder's verdicts (95_test_vectors.md 2.14, 2.15) -/

theorem test_decode_field_extremes :
    decode 0x0000F800#32 = .instr (.add 31 0 0) ∧ decode 0x03E00000#32 = .instr (.add 0 31 0) ∧
      decode 0x001F0000#32 = .instr (.add 0 0 31) ∧ decode 0x041F0000#32 = .instr (.addi 31 0 0#16) ∧
      decode 0x07E00000#32 = .instr (.addi 0 31 0#16) ∧ decode 0x0400FFFF#32 = .instr (.addi 0 0 0xFFFF#16) ∧
      decode 0x77FF001F#32 = .instr (.sari 31 31 31#16) ∧ decode 0x7C1FFFFF#32 = .instr (.ldhi 31 0xFFFF#16) := by decide

theorem test_decode_ignored_bits :
    decode 0x00000000#32 = .instr (.add 0 0 0) ∧ decode 0x002218FF#32 = .instr (.add 3 1 2) ∧
      decode 0x002217FF#32 = .instr (.add 2 1 2) ∧ decode 0x7FE3BEEF#32 = .instr (.ldhi 3 0xBEEF#16) ∧
      decode 0x6423FFE4#32 = .instr (.slli 3 1 4#16) ∧ decode 0x7C000000#32 = .instr (.ldhi 0 0#16) := by decide

theorem test_decode_illegal_and_refused :
    decode 0x78000000#32 = .illegalInstruction ∧ decode 0x7BFFFFFF#32 = .illegalInstruction ∧
      decode 0x80000000#32 = .refused ∧ decode 0xFFFFFFFF#32 = .refused ∧ decode 0xA8000000#32 = .refused := by decide

/-- The first byte holds the opcode: bytes 24 23 80 01 are DIVI (R45), and what follows is handed back. -/
theorem test_decodeBytes_big_endian :
    decodeBytes [0x24#8, 0x23#8, 0x80#8, 0x01#8, 0x77#8] = some (.instr (.divi 3 1 0x8001#16), [0x77#8]) ∧
      decodeBytes [0x24#8, 0x23#8, 0x80#8] = none := by decide

/-- Immediates out of range, wrong operand lists and unknown mnemonics are rejected (R80). -/
theorem test_assemble_rejects :
    assemble "addi" [.reg 3, .reg 1, .num 32768] = none ∧ assemble "addi" [.reg 3, .reg 1, .num (-32769)] = none ∧
      assemble "ori" [.reg 3, .reg 1, .num 65536] = none ∧ assemble "ori" [.reg 3, .reg 1, .num (-1)] = none ∧
      assemble "slli" [.reg 3, .reg 1, .num 32] = none ∧ assemble "ldhi" [.reg 3, .reg 1, .num 5] = none ∧
      assemble "add" [.reg 3, .reg 1, .num 5] = none ∧ assemble "nop" [.reg 3, .reg 1, .reg 2] = none := by decide

/-! ### results, two vectors per instruction (95_test_vectors.md 2.1 to 2.13) -/

theorem test_add_carry_out_is_lost : valueIn 3 (exec (.add 3 1 2) (regs 0xFFFFFFFF#32 0x00000001#32)) = some 0x00000000#32 := by decide

theorem test_add_signed_overflow_wraps : valueIn 3 (exec (.add 3 1 2) (regs 0x7FFFFFFF#32 0x00000001#32)) = some 0x80000000#32 := by decide

theorem test_sub_five_minus_seven : valueIn 3 (exec (.sub 3 1 2) (regs 0x00000005#32 0x00000007#32)) = some 0xFFFFFFFE#32 := by decide

theorem test_sub_negates_the_most_negative : valueIn 3 (exec (.sub 3 1 2) (regs 0x00000000#32 0x80000000#32)) = some 0x80000000#32 := by decide

theorem test_addi_most_negative_immediate : valueIn 3 (exec (.addi 3 1 0x8000#16) (regs 0x00000000#32 0#32)) = some 0xFFFF8000#32 := by decide

theorem test_addi_signed_overflow_wraps : valueIn 3 (exec (.addi 3 1 0x7FFF#16) (regs 0x7FFFFFFF#32 0#32)) = some 0x80007FFE#32 := by decide

theorem test_subi_minus_minus_one : valueIn 3 (exec (.subi 3 1 0xFFFF#16) (regs 0x00000005#32 0#32)) = some 0x00000006#32 := by decide

theorem test_subi_signed_overflow_wraps : valueIn 3 (exec (.subi 3 1 0x7FFF#16) (regs 0x80000000#32 0#32)) = some 0x7FFF8001#32 := by decide

theorem test_mul_three_times_minus_two : valueIn 3 (exec (.mul 3 1 2) (regs 0x00000003#32 0xFFFFFFFE#32)) = some 0xFFFFFFFA#32 := by decide

theorem test_mul_general : valueIn 3 (exec (.mul 3 1 2) (regs 0x12345678#32 0x9ABCDEF0#32)) = some 0x242D2080#32 := by decide

theorem test_mulu_square_of_the_largest : valueIn 3 (exec (.mulu 3 1 2) (regs 0xFFFFFFFF#32 0xFFFFFFFF#32)) = some 0x00000001#32 := by decide

theorem test_mulu_general : valueIn 3 (exec (.mulu 3 1 2) (regs 0x12345678#32 0x9ABCDEF0#32)) = some 0x242D2080#32 := by decide

theorem test_muli_immediate_is_negative : valueIn 3 (exec (.muli 3 1 0xFFFE#16) (regs 0x00000003#32 0#32)) = some 0xFFFFFFFA#32 := by decide

theorem test_muli_immediate_is_the_most_negative : valueIn 3 (exec (.muli 3 1 0x8000#16) (regs 0xFFFFFFFF#32 0#32)) = some 0x00008000#32 := by decide

theorem test_mului_immediate_is_positive : valueIn 3 (exec (.mului 3 1 0xFFFE#16) (regs 0x00000003#32 0#32)) = some 0x0002FFFA#32 := by decide

theorem test_mului_largest_immediate : valueIn 3 (exec (.mului 3 1 0xFFFF#16) (regs 0x00010001#32 0#32)) = some 0xFFFFFFFF#32 := by decide

theorem test_div_rounds_toward_zero : valueIn 3 (exec (.div 3 1 2) (regs 0xFFFFFFF9#32 0x00000002#32)) = some 0xFFFFFFFD#32 := by decide

theorem test_div_zero_divisor :
    faultOf (exec (.div 3 1 2) (regs 0x00000005#32 0x00000000#32)) = some (.divisionByZero 0x00001000#32) := by decide

theorem test_rem_follows_the_dividend : valueIn 3 (exec (.rem 3 1 2) (regs 0xFFFFFFF9#32 0x00000002#32)) = some 0xFFFFFFFF#32 := by decide

theorem test_rem_zero_divisor :
    faultOf (exec (.rem 3 1 2) (regs 0x00000005#32 0x00000000#32)) = some (.divisionByZero 0x00001000#32) := by decide

theorem test_divi_negative_immediate : valueIn 3 (exec (.divi 3 1 0xFFFE#16) (regs 0x00000007#32 0#32)) = some 0xFFFFFFFD#32 := by decide

theorem test_divi_zero_divisor :
    faultOf (exec (.divi 3 1 0x0000#16) (regs 0x00000005#32 0#32)) = some (.divisionByZero 0x00001000#32) := by decide

theorem test_remi_most_negative_immediate : valueIn 3 (exec (.remi 3 1 0x8000#16) (regs 0x00012345#32 0#32)) = some 0x00002345#32 := by decide

theorem test_remi_zero_divisor :
    faultOf (exec (.remi 3 1 0x0000#16) (regs 0x00000005#32 0#32)) = some (.divisionByZero 0x00001000#32) := by decide

theorem test_divu_dividend_is_unsigned : valueIn 3 (exec (.divu 3 1 2) (regs 0xFFFFFFF9#32 0x00000002#32)) = some 0x7FFFFFFC#32 := by decide

theorem test_divu_zero_divisor :
    faultOf (exec (.divu 3 1 2) (regs 0x00000005#32 0x00000000#32)) = some (.divisionByZero 0x00001000#32) := by decide

theorem test_remu_divisor_is_unsigned : valueIn 3 (exec (.remu 3 1 2) (regs 0xFFFFFFFF#32 0x80000000#32)) = some 0x7FFFFFFF#32 := by decide

theorem test_remu_zero_divisor :
    faultOf (exec (.remu 3 1 2) (regs 0x00000005#32 0x00000000#32)) = some (.divisionByZero 0x00001000#32) := by decide

theorem test_divui_largest_divisor : valueIn 3 (exec (.divui 3 1 0xFFFF#16) (regs 0xFFFFFFFF#32 0#32)) = some 0x00010001#32 := by decide

theorem test_divui_zero_divisor :
    faultOf (exec (.divui 3 1 0x0000#16) (regs 0x00000005#32 0#32)) = some (.divisionByZero 0x00001000#32) := by decide

theorem test_remui_divisor_is_positive : valueIn 3 (exec (.remui 3 1 0x8000#16) (regs 0x00012345#32 0#32)) = some 0x00002345#32 := by decide

theorem test_remui_zero_divisor :
    faultOf (exec (.remui 3 1 0x0000#16) (regs 0x00000005#32 0#32)) = some (.divisionByZero 0x00001000#32) := by decide

theorem test_and_masks : valueIn 3 (exec (.and 3 1 2) (regs 0xFF00FF00#32 0x0FF00FF0#32)) = some 0x0F000F00#32 := by decide

theorem test_and_identity : valueIn 3 (exec (.and 3 1 2) (regs 0x12345678#32 0xFFFFFFFF#32)) = some 0x12345678#32 := by decide

theorem test_or_unites : valueIn 3 (exec (.or 3 1 2) (regs 0xFF00FF00#32 0x0FF00FF0#32)) = some 0xFFF0FFF0#32 := by decide

theorem test_or_zero_is_the_identity : valueIn 3 (exec (.or 3 1 2) (regs 0x12345678#32 0x00000000#32)) = some 0x12345678#32 := by decide

theorem test_xor_differs : valueIn 3 (exec (.xor 3 1 2) (regs 0xFF00FF00#32 0x0FF00FF0#32)) = some 0xF0F0F0F0#32 := by decide

theorem test_xor_self_gives_zero : valueIn 3 (exec (.xor 3 1 2) (regs 0xDEADBEEF#32 0xDEADBEEF#32)) = some 0x00000000#32 := by decide

theorem test_xnor_agrees : valueIn 3 (exec (.xnor 3 1 2) (regs 0xFF00FF00#32 0x0FF00FF0#32)) = some 0x0F0F0F0F#32 := by decide

theorem test_xnor_with_zero_is_not : valueIn 3 (exec (.xnor 3 1 2) (regs 0x12345678#32 0x00000000#32)) = some 0xEDCBA987#32 := by decide

theorem test_andi_clears_the_upper_half : valueIn 3 (exec (.andi 3 1 0xFFFF#16) (regs 0xFFFFFFFF#32 0#32)) = some 0x0000FFFF#32 := by decide

theorem test_andi_masks : valueIn 3 (exec (.andi 3 1 0x0FF0#16) (regs 0x12345678#32 0#32)) = some 0x00000670#32 := by decide

theorem test_ori_fills_the_low_half : valueIn 3 (exec (.ori 3 1 0x5678#16) (regs 0x12340000#32 0#32)) = some 0x12345678#32 := by decide

theorem test_ori_no_sign_extension : valueIn 3 (exec (.ori 3 1 0xFFFF#16) (regs 0x00000000#32 0#32)) = some 0x0000FFFF#32 := by decide

theorem test_xori_keeps_the_upper_half : valueIn 3 (exec (.xori 3 1 0xFFFF#16) (regs 0xFFFFFFFF#32 0#32)) = some 0xFFFF0000#32 := by decide

theorem test_xori_flips_bit_fifteen : valueIn 3 (exec (.xori 3 1 0x8000#16) (regs 0x12345678#32 0#32)) = some 0x1234D678#32 := by decide

theorem test_xnori_complements_the_upper_half : valueIn 3 (exec (.xnori 3 1 0xFFFF#16) (regs 0x00000000#32 0#32)) = some 0xFFFF0000#32 := by decide

theorem test_xnori_with_zero_is_not : valueIn 3 (exec (.xnori 3 1 0x0000#16) (regs 0x12345678#32 0#32)) = some 0xEDCBA987#32 := by decide

theorem test_sll_by_thirty_two_is_by_zero : valueIn 3 (exec (.sll 3 1 2) (regs 0x12345678#32 0x00000020#32)) = some 0x12345678#32 := by decide

theorem test_sll_low_five_bits_count : valueIn 3 (exec (.sll 3 1 2) (regs 0x12345678#32 0xFFFFFFE4#32)) = some 0x23456780#32 := by decide

theorem test_slr_by_thirty_one : valueIn 3 (exec (.slr 3 1 2) (regs 0x80000000#32 0x0000001F#32)) = some 0x00000001#32 := by decide

theorem test_slr_by_thirty_three_is_by_one : valueIn 3 (exec (.slr 3 1 2) (regs 0xFFFFFFFF#32 0x00000021#32)) = some 0x7FFFFFFF#32 := by decide

theorem test_sar_sign_fill : valueIn 3 (exec (.sar 3 1 2) (regs 0x80000000#32 0x0000001F#32)) = some 0xFFFFFFFF#32 := by decide

theorem test_sar_by_thirty_two_is_by_zero : valueIn 3 (exec (.sar 3 1 2) (regs 0xF2345678#32 0x00000020#32)) = some 0xF2345678#32 := by decide

theorem test_slli_by_thirty_one : valueIn 3 (exec (.slli 3 1 0x001F#16) (regs 0x00000001#32 0#32)) = some 0x80000000#32 := by decide

theorem test_slli_low_five_bits_count : valueIn 3 (exec (.slli 3 1 0xFFE8#16) (regs 0x12345678#32 0#32)) = some 0x34567800#32 := by decide

theorem test_slri_by_four : valueIn 3 (exec (.slri 3 1 0x0004#16) (regs 0x12345678#32 0#32)) = some 0x01234567#32 := by decide

theorem test_slri_low_five_bits_count : valueIn 3 (exec (.slri 3 1 0xFFFC#16) (regs 0xFFFFFFFF#32 0#32)) = some 0x0000000F#32 := by decide

theorem test_sari_negative_fills_with_ones : valueIn 3 (exec (.sari 3 1 0x0004#16) (regs 0xF2345678#32 0#32)) = some 0xFF234567#32 := by decide

theorem test_sari_low_five_bits_count : valueIn 3 (exec (.sari 3 1 0xFFE1#16) (regs 0x80000000#32 0#32)) = some 0xC0000000#32 := by decide

theorem test_ldhi_places : valueIn 3 (exec (.ldhi 3 0x1234#16) (regs 0#32 0#32)) = some 0x12340000#32 := by decide

theorem test_ldhi_largest : valueIn 3 (exec (.ldhi 3 0xFFFF#16) (regs 0#32 0#32)) = some 0xFFFF0000#32 := by decide

/-! ### one step: fetch, decode, execute, and the checks before it -/

/-- Both reads see the old value (95_test_vectors.md 2.16). -/
theorem test_step_destination_is_source :
    valueIn 1 (step (onWord 0x00210800#32 5#32 0#32)) = some 0x0000000A#32 ∧
      valueIn 2 (step (onWord 0x60221000#32 3#32 4#32)) = some 0x00000030#32 ∧
      valueIn 1 (step (onWord 0x20210800#32 7#32 0#32)) = some 1#32 := by decide

/-- A destination x[0] discards the result, and the pc advances; as a source x[0] reads 0 (95_test_vectors.md 2.16). -/
theorem test_step_zero_register :
    step (onWord 0x00210000#32 0x12345678#32 0#32) = .next (onWord 0x00210000#32 0x12345678#32 0#32).advance ∧
      valueIn 2 (step (onWord 0x00011000#32 0x12345678#32 0#32)) = some 0x12345678#32 ∧
      faultOf (step (onWord 0x20220000#32 7#32 0#32)) = some (.divisionByZero 0x00001000#32) :=
  ⟨rfl, by decide, by decide⟩

/-- The pc advances by 4, and past the top of the address space to 0 (R26). -/
theorem test_step_pc :
    pcOf (step (onWord 0x00221800#32 1#32 2#32)) = some 0x00001004#32 ∧
      pcOf (exec (.add 3 1 2) { regs 1#32 2#32 with pc := 0xFFFFFFFC#32 }) = some 0#32 := by decide

/-- Program P5 of 95_test_vectors.md, its second step: the illegal word faults, the refused word is refused. -/
theorem test_step_illegal_and_refused :
    faultOf (step (onWord 0x78000000#32 1#32 2#32)) = some (.illegalInstruction 0x00001000#32 0x78000000#32) ∧
      refusalOf (step (onWord 0xC0220000#32 1#32 2#32)) = some (.outsideSection 0x00001000#32 0xC0220000#32) := by decide

/-- Reset steps nowhere: PROGRAM is empty (log 12). With an instruction placed, the very next step runs it. -/
theorem test_reset_runs_the_placed_word :
    refusalOf (step State.reset) = some (.noWordAt 0xE0000000#32) ∧
      valueIn 3 (step (State.reset.withFetchWord 32 0x7C03BEEF)) = some 0xBEEF0000#32 := by decide

/-- Program P4 of 95_test_vectors.md, its faulting step: the state recorded with the fault is the state before it. -/
theorem test_run_faults_precisely :
    runFor 1 (onWord 0x20221800#32 10#32 0#32) =
      .faulted (.divisionByZero 0x00001000#32) ((onWord 0x20221800#32 10#32 0#32).recordFault (.divisionByZero 0x00001000#32)) :=
  rfl

/-! ### witnesses: a concrete state and operands for every statement with hypotheses -/

theorem test_witness_AddWritesTheSum :
    0x03FFFFFF#32 &&& 0xFC000000#32 = 0x00000000#32 ∧
      (Instr.add 31 0 31).dest ≠ 0#5 ∧
      (30#5 : RegNum) ≠ (Instr.add 31 0 31).dest ∧
      valueIn 31 (exec (.add 31 1 2) (regs 0xFFFFFFFF#32 0x00000001#32)) = some 0x00000000#32 := by decide

theorem test_witness_AddiWritesTheSumWithTheSignedImmediate :
    0x07FFFFFF#32 &&& 0xFC000000#32 = 0x04000000#32 ∧
      (Instr.addi 31 0 0x8000#16).dest ≠ 0#5 ∧
      (30#5 : RegNum) ≠ (Instr.addi 31 0 0x8000#16).dest ∧
      valueIn 31 (exec (.addi 31 1 0x8000#16) (regs 0x00000000#32 0#32)) = some 0xFFFF8000#32 ∧
      (assemble "addi" [.reg 0, .reg 31, .num (-32768)]).isSome = true ∧
      (assemble "addi" [.reg 0, .reg 31, .num 32767]).isSome = true := by decide

theorem test_witness_SubWritesTheDifference :
    0x0BFFFFFF#32 &&& 0xFC000000#32 = 0x08000000#32 ∧
      (Instr.sub 31 0 31).dest ≠ 0#5 ∧
      (30#5 : RegNum) ≠ (Instr.sub 31 0 31).dest ∧
      valueIn 31 (exec (.sub 31 1 2) (regs 0x00000005#32 0x00000007#32)) = some 0xFFFFFFFE#32 := by decide

theorem test_witness_SubiWritesTheDifferenceWithTheSignedImmediate :
    0x0FFFFFFF#32 &&& 0xFC000000#32 = 0x0C000000#32 ∧
      (Instr.subi 31 0 0x8000#16).dest ≠ 0#5 ∧
      (30#5 : RegNum) ≠ (Instr.subi 31 0 0x8000#16).dest ∧
      valueIn 31 (exec (.subi 31 1 0xFFFF#16) (regs 0x00000005#32 0#32)) = some 0x00000006#32 ∧
      (assemble "subi" [.reg 0, .reg 31, .num (-32768)]).isSome = true ∧
      (assemble "subi" [.reg 0, .reg 31, .num 32767]).isSome = true := by decide

theorem test_witness_MulWritesTheSignedProduct :
    0x13FFFFFF#32 &&& 0xFC000000#32 = 0x10000000#32 ∧
      (Instr.mul 31 0 31).dest ≠ 0#5 ∧
      (30#5 : RegNum) ≠ (Instr.mul 31 0 31).dest ∧
      valueIn 31 (exec (.mul 31 1 2) (regs 0x00000003#32 0xFFFFFFFE#32)) = some 0xFFFFFFFA#32 := by decide

theorem test_witness_MuliWritesTheSignedProduct :
    0x17FFFFFF#32 &&& 0xFC000000#32 = 0x14000000#32 ∧
      (Instr.muli 31 0 0x8000#16).dest ≠ 0#5 ∧
      (30#5 : RegNum) ≠ (Instr.muli 31 0 0x8000#16).dest ∧
      valueIn 31 (exec (.muli 31 1 0xFFFE#16) (regs 0x00000003#32 0#32)) = some 0xFFFFFFFA#32 ∧
      (assemble "muli" [.reg 0, .reg 31, .num (-32768)]).isSome = true ∧
      (assemble "muli" [.reg 0, .reg 31, .num 32767]).isSome = true := by decide

theorem test_witness_MuluWritesTheUnsignedProduct :
    0x1BFFFFFF#32 &&& 0xFC000000#32 = 0x18000000#32 ∧
      (Instr.mulu 31 0 31).dest ≠ 0#5 ∧
      (30#5 : RegNum) ≠ (Instr.mulu 31 0 31).dest ∧
      valueIn 31 (exec (.mulu 31 1 2) (regs 0xFFFFFFFF#32 0xFFFFFFFF#32)) = some 0x00000001#32 := by decide

theorem test_witness_MuluiWritesTheUnsignedProduct :
    0x1FFFFFFF#32 &&& 0xFC000000#32 = 0x1C000000#32 ∧
      (Instr.mului 31 0 0x8000#16).dest ≠ 0#5 ∧
      (30#5 : RegNum) ≠ (Instr.mului 31 0 0x8000#16).dest ∧
      valueIn 31 (exec (.mului 31 1 0xFFFE#16) (regs 0x00000003#32 0#32)) = some 0x0002FFFA#32 ∧
      (assemble "mului" [.reg 0, .reg 31, .num 0]).isSome = true ∧
      (assemble "mului" [.reg 0, .reg 31, .num 65535]).isSome = true := by decide

theorem test_witness_DivWritesTheQuotientTowardZero :
    0x23FFFFFF#32 &&& 0xFC000000#32 = 0x20000000#32 ∧
      (Instr.div 31 0 31).dest ≠ 0#5 ∧
      (30#5 : RegNum) ≠ (Instr.div 31 0 31).dest ∧
      (regs 5#32 0#32).readReg 2 = 0#32 ∧
      (regs 5#32 0x80000000#32).readReg 2 ≠ 0#32 ∧
      valueIn 31 (exec (.div 31 1 2) (regs 0x80000000#32 0x80000000#32)) = some 1#32 := by decide

theorem test_witness_DiviWritesTheQuotientTowardZero :
    0x27FFFFFF#32 &&& 0xFC000000#32 = 0x24000000#32 ∧
      (Instr.divi 31 0 0x8000#16).dest ≠ 0#5 ∧
      (30#5 : RegNum) ≠ (Instr.divi 31 0 0x8000#16).dest ∧
      (0x0000#16 : Imm) = 0#16 ∧
      (0x8000#16 : Imm) ≠ 0#16 ∧
      valueIn 31 (exec (.divi 31 1 0x8000#16) (regs 0xFFFF8000#32 0#32)) = some 1#32 ∧
      (assemble "divi" [.reg 0, .reg 31, .num (-32768)]).isSome = true ∧
      (assemble "divi" [.reg 0, .reg 31, .num 32767]).isSome = true := by decide

theorem test_witness_DivuWritesTheUnsignedQuotient :
    0x2BFFFFFF#32 &&& 0xFC000000#32 = 0x28000000#32 ∧
      (Instr.divu 31 0 31).dest ≠ 0#5 ∧
      (30#5 : RegNum) ≠ (Instr.divu 31 0 31).dest ∧
      (regs 5#32 0#32).readReg 2 = 0#32 ∧
      (regs 5#32 0x80000000#32).readReg 2 ≠ 0#32 ∧
      valueIn 31 (exec (.divu 31 1 2) (regs 0x80000000#32 0xFFFFFFFF#32)) = some 0#32 := by decide

theorem test_witness_DivuiWritesTheUnsignedQuotient :
    0x2FFFFFFF#32 &&& 0xFC000000#32 = 0x2C000000#32 ∧
      (Instr.divui 31 0 0x8000#16).dest ≠ 0#5 ∧
      (30#5 : RegNum) ≠ (Instr.divui 31 0 0x8000#16).dest ∧
      (0x0000#16 : Imm) = 0#16 ∧
      (0x8000#16 : Imm) ≠ 0#16 ∧
      valueIn 31 (exec (.divui 31 1 0x8000#16) (regs 0x00010000#32 0#32)) = some 2#32 ∧
      (assemble "divui" [.reg 0, .reg 31, .num 0]).isSome = true ∧
      (assemble "divui" [.reg 0, .reg 31, .num 65535]).isSome = true := by decide

theorem test_witness_RemWritesTheRemainderOfTheDividendsSign :
    0x33FFFFFF#32 &&& 0xFC000000#32 = 0x30000000#32 ∧
      (Instr.rem 31 0 31).dest ≠ 0#5 ∧
      (30#5 : RegNum) ≠ (Instr.rem 31 0 31).dest ∧
      (regs 5#32 0#32).readReg 2 = 0#32 ∧
      (regs 5#32 0x80000000#32).readReg 2 ≠ 0#32 ∧
      valueIn 31 (exec (.rem 31 1 2) (regs 0x80000000#32 0x7FFFFFFF#32)) = some 0xFFFFFFFF#32 := by decide

theorem test_witness_RemiWritesTheRemainderOfTheDividendsSign :
    0x37FFFFFF#32 &&& 0xFC000000#32 = 0x34000000#32 ∧
      (Instr.remi 31 0 0x8000#16).dest ≠ 0#5 ∧
      (30#5 : RegNum) ≠ (Instr.remi 31 0 0x8000#16).dest ∧
      (0x0000#16 : Imm) = 0#16 ∧
      (0x8000#16 : Imm) ≠ 0#16 ∧
      valueIn 31 (exec (.remi 31 1 0xFFFE#16) (regs 7#32 0#32)) = some 1#32 ∧
      (assemble "remi" [.reg 0, .reg 31, .num (-32768)]).isSome = true ∧
      (assemble "remi" [.reg 0, .reg 31, .num 32767]).isSome = true := by decide

theorem test_witness_RemuWritesTheUnsignedRemainder :
    0x3BFFFFFF#32 &&& 0xFC000000#32 = 0x38000000#32 ∧
      (Instr.remu 31 0 31).dest ≠ 0#5 ∧
      (30#5 : RegNum) ≠ (Instr.remu 31 0 31).dest ∧
      (regs 5#32 0#32).readReg 2 = 0#32 ∧
      (regs 5#32 0x80000000#32).readReg 2 ≠ 0#32 ∧
      valueIn 31 (exec (.remu 31 1 2) (regs 3#32 0xFFFFFFFF#32)) = some 3#32 := by decide

theorem test_witness_RemuiWritesTheUnsignedRemainder :
    0x3FFFFFFF#32 &&& 0xFC000000#32 = 0x3C000000#32 ∧
      (Instr.remui 31 0 0x8000#16).dest ≠ 0#5 ∧
      (30#5 : RegNum) ≠ (Instr.remui 31 0 0x8000#16).dest ∧
      (0x0000#16 : Imm) = 0#16 ∧
      (0x8000#16 : Imm) ≠ 0#16 ∧
      valueIn 31 (exec (.remui 31 1 0xFFFF#16) (regs 0xFFFFFFFF#32 0#32)) = some 0#32 ∧
      (assemble "remui" [.reg 0, .reg 31, .num 0]).isSome = true ∧
      (assemble "remui" [.reg 0, .reg 31, .num 65535]).isSome = true := by decide

theorem test_witness_AndWritesTheBitwiseAnd :
    0x43FFFFFF#32 &&& 0xFC000000#32 = 0x40000000#32 ∧
      (Instr.and 31 0 31).dest ≠ 0#5 ∧
      (30#5 : RegNum) ≠ (Instr.and 31 0 31).dest ∧
      valueIn 31 (exec (.and 31 1 2) (regs 0xFF00FF00#32 0x0FF00FF0#32)) = some 0x0F000F00#32 := by decide

theorem test_witness_AndiWritesTheBitwiseAnd :
    0x47FFFFFF#32 &&& 0xFC000000#32 = 0x44000000#32 ∧
      (Instr.andi 31 0 0x8000#16).dest ≠ 0#5 ∧
      (30#5 : RegNum) ≠ (Instr.andi 31 0 0x8000#16).dest ∧
      valueIn 31 (exec (.andi 31 1 0xFFFF#16) (regs 0xFFFFFFFF#32 0#32)) = some 0x0000FFFF#32 ∧
      (assemble "andi" [.reg 0, .reg 31, .num 0]).isSome = true ∧
      (assemble "andi" [.reg 0, .reg 31, .num 65535]).isSome = true := by decide

theorem test_witness_OrWritesTheBitwiseOr :
    0x4BFFFFFF#32 &&& 0xFC000000#32 = 0x48000000#32 ∧
      (Instr.or 31 0 31).dest ≠ 0#5 ∧
      (30#5 : RegNum) ≠ (Instr.or 31 0 31).dest ∧
      valueIn 31 (exec (.or 31 1 2) (regs 0xFF00FF00#32 0x0FF00FF0#32)) = some 0xFFF0FFF0#32 := by decide

theorem test_witness_OriWritesTheBitwiseOr :
    0x4FFFFFFF#32 &&& 0xFC000000#32 = 0x4C000000#32 ∧
      (Instr.ori 31 0 0x8000#16).dest ≠ 0#5 ∧
      (30#5 : RegNum) ≠ (Instr.ori 31 0 0x8000#16).dest ∧
      valueIn 31 (exec (.ori 31 1 0x5678#16) (regs 0x12340000#32 0#32)) = some 0x12345678#32 ∧
      (assemble "ori" [.reg 0, .reg 31, .num 0]).isSome = true ∧
      (assemble "ori" [.reg 0, .reg 31, .num 65535]).isSome = true := by decide

theorem test_witness_XorWritesTheBitwiseXor :
    0x53FFFFFF#32 &&& 0xFC000000#32 = 0x50000000#32 ∧
      (Instr.xor 31 0 31).dest ≠ 0#5 ∧
      (30#5 : RegNum) ≠ (Instr.xor 31 0 31).dest ∧
      valueIn 31 (exec (.xor 31 1 2) (regs 0xFF00FF00#32 0x0FF00FF0#32)) = some 0xF0F0F0F0#32 := by decide

theorem test_witness_XoriWritesTheBitwiseXor :
    0x57FFFFFF#32 &&& 0xFC000000#32 = 0x54000000#32 ∧
      (Instr.xori 31 0 0x8000#16).dest ≠ 0#5 ∧
      (30#5 : RegNum) ≠ (Instr.xori 31 0 0x8000#16).dest ∧
      valueIn 31 (exec (.xori 31 1 0xFFFF#16) (regs 0xFFFFFFFF#32 0#32)) = some 0xFFFF0000#32 ∧
      (assemble "xori" [.reg 0, .reg 31, .num 0]).isSome = true ∧
      (assemble "xori" [.reg 0, .reg 31, .num 65535]).isSome = true := by decide

theorem test_witness_XnorWritesTheBitwiseEquivalence :
    0x5BFFFFFF#32 &&& 0xFC000000#32 = 0x58000000#32 ∧
      (Instr.xnor 31 0 31).dest ≠ 0#5 ∧
      (30#5 : RegNum) ≠ (Instr.xnor 31 0 31).dest ∧
      valueIn 31 (exec (.xnor 31 1 2) (regs 0xFF00FF00#32 0x0FF00FF0#32)) = some 0x0F0F0F0F#32 := by decide

theorem test_witness_XnoriWritesTheBitwiseEquivalence :
    0x5FFFFFFF#32 &&& 0xFC000000#32 = 0x5C000000#32 ∧
      (Instr.xnori 31 0 0x8000#16).dest ≠ 0#5 ∧
      (30#5 : RegNum) ≠ (Instr.xnori 31 0 0x8000#16).dest ∧
      valueIn 31 (exec (.xnori 31 1 0xFFFF#16) (regs 0x00000000#32 0#32)) = some 0xFFFF0000#32 ∧
      (assemble "xnori" [.reg 0, .reg 31, .num 0]).isSome = true ∧
      (assemble "xnori" [.reg 0, .reg 31, .num 65535]).isSome = true := by decide

theorem test_witness_SllMovesBitsUpAndFillsWithZeros :
    0x63FFFFFF#32 &&& 0xFC000000#32 = 0x60000000#32 ∧
      (Instr.sll 31 0 31).dest ≠ 0#5 ∧
      (30#5 : RegNum) ≠ (Instr.sll 31 0 31).dest ∧
      valueIn 31 (exec (.sll 31 1 2) (regs 0x12345678#32 0x00000020#32)) = some 0x12345678#32 := by decide

theorem test_witness_SlliMovesBitsUpAndFillsWithZeros :
    0x67FFFFFF#32 &&& 0xFC000000#32 = 0x64000000#32 ∧
      (Instr.slli 31 0 0x8000#16).dest ≠ 0#5 ∧
      (30#5 : RegNum) ≠ (Instr.slli 31 0 0x8000#16).dest ∧
      valueIn 31 (exec (.slli 31 1 0x001F#16) (regs 0x00000001#32 0#32)) = some 0x80000000#32 ∧
      (assemble "slli" [.reg 0, .reg 31, .num 0]).isSome = true ∧
      (assemble "slli" [.reg 0, .reg 31, .num 31]).isSome = true := by decide

theorem test_witness_SlrMovesBitsDownAndFillsWithZeros :
    0x6BFFFFFF#32 &&& 0xFC000000#32 = 0x68000000#32 ∧
      (Instr.slr 31 0 31).dest ≠ 0#5 ∧
      (30#5 : RegNum) ≠ (Instr.slr 31 0 31).dest ∧
      valueIn 31 (exec (.slr 31 1 2) (regs 0x80000000#32 0x0000001F#32)) = some 0x00000001#32 := by decide

theorem test_witness_SlriMovesBitsDownAndFillsWithZeros :
    0x6FFFFFFF#32 &&& 0xFC000000#32 = 0x6C000000#32 ∧
      (Instr.slri 31 0 0x8000#16).dest ≠ 0#5 ∧
      (30#5 : RegNum) ≠ (Instr.slri 31 0 0x8000#16).dest ∧
      valueIn 31 (exec (.slri 31 1 0x0004#16) (regs 0x12345678#32 0#32)) = some 0x01234567#32 ∧
      (assemble "slri" [.reg 0, .reg 31, .num 0]).isSome = true ∧
      (assemble "slri" [.reg 0, .reg 31, .num 31]).isSome = true := by decide

theorem test_witness_SarMovesBitsDownAndReplicatesTheSign :
    0x73FFFFFF#32 &&& 0xFC000000#32 = 0x70000000#32 ∧
      (Instr.sar 31 0 31).dest ≠ 0#5 ∧
      (30#5 : RegNum) ≠ (Instr.sar 31 0 31).dest ∧
      valueIn 31 (exec (.sar 31 1 2) (regs 0x80000000#32 0x0000001F#32)) = some 0xFFFFFFFF#32 := by decide

theorem test_witness_SariMovesBitsDownAndReplicatesTheSign :
    0x77FFFFFF#32 &&& 0xFC000000#32 = 0x74000000#32 ∧
      (Instr.sari 31 0 0x8000#16).dest ≠ 0#5 ∧
      (30#5 : RegNum) ≠ (Instr.sari 31 0 0x8000#16).dest ∧
      valueIn 31 (exec (.sari 31 1 0x0004#16) (regs 0xF2345678#32 0#32)) = some 0xFF234567#32 ∧
      (assemble "sari" [.reg 0, .reg 31, .num 0]).isSome = true ∧
      (assemble "sari" [.reg 0, .reg 31, .num 31]).isSome = true := by decide

theorem test_witness_LdhiPlacesTheImmediateInTheUpperHalf :
    0x7FFFFFFF#32 &&& 0xFC000000#32 = 0x7C000000#32 ∧
      (Instr.ldhi 31 0x8000#16).dest ≠ 0#5 ∧
      (30#5 : RegNum) ≠ (Instr.ldhi 31 0x8000#16).dest ∧
      valueIn 31 (exec (.ldhi 31 0x1234#16) (regs 0#32 0#32)) = some 0x12340000#32 := by decide

/-- A completion, at the top of the address space, into x[31] and into x[0]. -/
theorem test_witness_CompletionChangesOnlyTheDestinationAndThePc :
    (pcOf (exec (.add 31 1 2) { regs 1#32 2#32 with pc := 0xFFFFFFFC#32 })).isSome = true ∧
      (pcOf (exec (.ldhi 0 0xFFFF#16) (regs 1#32 2#32))).isSome = true ∧
      (30#5 : RegNum) ≠ (Instr.add 31 1 2).dest := by decide

/-- Two states that agree on the sources and on nothing else: a completion and a fault. -/
theorem test_witness_InstructionsTouchOnlyTheRegistersTheirFieldsName :
    (∀ r ∈ (Instr.addi 3 1 5#16).sources, (regs 7#32 1#32).readReg r = (regs 7#32 2#32).readReg r) ∧
      (pcOf (exec (.addi 3 1 5#16) (regs 7#32 1#32))).isSome = true ∧
      (∀ r ∈ (Instr.divu 3 2 2).sources, (regs 7#32 0#32).readReg r = (regs 8#32 0#32).readReg r) ∧
      faultOf (exec (.divu 3 2 2) (regs 7#32 0#32)) = some (.divisionByZero 0x00001000#32) ∧
      (regs 7#32 1#32 ≠ regs 7#32 2#32) := by decide

/-- x[0] as the destination of an instruction that completes and of one that faults. -/
theorem test_witness_ZeroRegisterReadsZeroAndDiscardsWrites :
    (Instr.add 0 1 1).dest = 0#5 ∧ zeroDivisor (.add 0 1 1) (regs 5#32 0#32) = false ∧
      (Instr.div 0 1 2).dest = 0#5 ∧ zeroDivisor (.div 0 1 2) (regs 7#32 0#32) = true := by decide

/-- A zero divisor in a register and in an immediate, and a divisor that is not 0. -/
theorem test_witness_ExactlyEightInstructionsRaiseDivisionByZero :
    zeroDivisor (.remu 3 1 0) (regs 5#32 9#32) = true ∧ zeroDivisor (.divui 3 1 0#16) (regs 5#32 9#32) = true ∧
      zeroDivisor (.remi 3 1 0x8000#16) (regs 5#32 0#32) = false := by decide

/-- A DIV by x[0], whose divisor is always 0. -/
theorem test_witness_FaultLeavesTheStateAndEndsTheRun :
    Fetches (onWord 0x20201800#32 5#32 9#32) ∧
      (onWord 0x20201800#32 5#32 9#32).program.word (onWord 0x20201800#32 5#32 9#32).pc = some 0x20201800#32 ∧
      decode 0x20201800#32 = .instr (.div 3 1 0) ∧
      zeroDivisor (.div 3 1 0) (onWord 0x20201800#32 5#32 9#32) = true := by decide

/-- The illegal opcode with every other bit set, and the lowest refused opcode. -/
theorem test_witness_IllegalAndRefusedWordsStopTheStep :
    Fetches (onWord 0x7BFFFFFF#32 0#32 0#32) ∧
      (onWord 0x7BFFFFFF#32 0#32 0#32).program.word 0x00001000#32 = some 0x7BFFFFFF#32 ∧
      (0x7BFFFFFF#32 : Word).extractLsb' 26 6 = 0x1E#6 ∧ (0x7BFFFFFF#32 : Word).getLsbD 31 = false ∧
      Fetches (onWord 0x80000000#32 0#32 0#32) ∧
      (onWord 0x80000000#32 0#32 0#32).program.word 0x00001000#32 = some 0x80000000#32 ∧
      (0x80000000#32 : Word).getLsbD 31 = true := by decide

/-- A recorded fault; a misaligned pc and a misaligned END; END reached; no word at the pc. -/
theorem test_witness_StepChecksInOrder :
    ((regs 1#32 2#32).recordFault (.divisionByZero 4#32)).faultRecord = some (.divisionByZero 4#32) ∧
      (¬ (Aligned (0x00001002#32 : Word) ∧ Aligned (0x00002000#32 : Word))) ∧
      refusalOf (step { regs 1#32 2#32 with pc := 0x00001002#32 }) = some .misalignedLaunch ∧
      refusalOf (step { regs 1#32 2#32 with endAddr := 0x00001003#32 }) = some .misalignedLaunch ∧
      refusalOf (step { onWord 0x00221800#32 1#32 2#32 with pc := 0x00002000#32 }) = some .runOver ∧
      Fetches (regs 1#32 2#32) ∧ (regs 1#32 2#32).program.word (regs 1#32 2#32).pc = none := by decide

/-- The four bytes of an ADDI at the pc. -/
theorem test_witness_StepRunsTheDecodedInstruction :
    Fetches (onWord 0x0402FFFF#32 1#32 2#32) ∧
      (onWord 0x0402FFFF#32 1#32 2#32).program.readByte 0x1000 = some 0x04#8 ∧
      (onWord 0x0402FFFF#32 1#32 2#32).program.readByte 0x1001 = some 0x02#8 ∧
      (onWord 0x0402FFFF#32 1#32 2#32).program.readByte 0x1002 = some 0xFF#8 ∧
      (onWord 0x0402FFFF#32 1#32 2#32).program.readByte 0x1003 = some 0xFF#8 ∧
      decode (0x04#8 ++ 0x02#8 ++ 0xFF#8 ++ 0xFF#8) = .instr (.addi 2 0 0xFFFF#16) := by decide

/-- The opcodes beside the illegal one, and a state that fetches. -/
theorem test_witness_StepOutcomesAreTheListedOnes :
    (0x77FFFFFF#32 : Word).getLsbD 31 = false ∧ (0x77FFFFFF#32 : Word).extractLsb' 26 6 ≠ 0x1E#6 ∧
      (0x7C000000#32 : Word).getLsbD 31 = false ∧ (0x7C000000#32 : Word).extractLsb' 26 6 ≠ 0x1E#6 ∧
      Fetches (onWord 0x00221800#32 1#32 2#32) ∧ Fetches (regs 1#32 2#32) := by decide

/-- Every outcome of a step that fetches occurs. -/
theorem test_step_outcomes :
    (pcOf (step (onWord 0x00221800#32 1#32 2#32))).isSome = true ∧
      (faultOf (step (onWord 0x24230000#32 1#32 2#32))).isSome = true ∧
      (faultOf (step (onWord 0x78000000#32 1#32 2#32))).isSome = true ∧
      (refusalOf (step (onWord 0x80000000#32 1#32 2#32))).isSome = true := by decide

/-- The products differ with imm[15] set and a low half that is not 0, and agree in each of the other cases (2.4). -/
theorem test_witness_SignedAndUnsignedProductsAgreeOnRegisters :
    valueIn 3 (exec (.muli 3 1 0xFFFE#16) (regs 3#32 0#32)) = some 0xFFFFFFFA#32 ∧
      valueIn 3 (exec (.mului 3 1 0xFFFE#16) (regs 3#32 0#32)) = some 0x0002FFFA#32 ∧
      valueIn 3 (exec (.muli 3 1 0x7FFF#16) (regs 0x100#32 0#32)) = some 0x007FFF00#32 ∧
      valueIn 3 (exec (.mului 3 1 0x7FFF#16) (regs 0x100#32 0#32)) = some 0x007FFF00#32 ∧
      valueIn 3 (exec (.muli 3 1 0x8000#16) (regs 0x00030000#32 0#32)) = some 0x80000000#32 ∧
      valueIn 3 (exec (.mului 3 1 0x8000#16) (regs 0x00030000#32 0#32)) = some 0x80000000#32 := by decide

/-- The overflow pair as operands, and the most negative immediate as divisor. -/
theorem test_witness_QuotientTimesDivisorPlusRemainderIsTheDividend :
    (regs 0x80000000#32 0xFFFFFFFF#32).readReg 2 ≠ 0#32 ∧ (0x8000#16 : Imm) ≠ 0#16 ∧ (3#5 : RegNum) ≠ 0#5 ∧
      valueIn 3 (exec (.div 3 1 2) (regs 0x80000000#32 0xFFFFFFFF#32)) = some 0x80000000#32 ∧
      valueIn 3 (exec (.rem 3 1 2) (regs 0x80000000#32 0xFFFFFFFF#32)) = some 0#32 := by decide

theorem test_witness_SignedOverflowGivesTheTruncatedQuotient :
    (regs 0x80000000#32 0xFFFFFFFF#32).readReg 1 = 0x80000000#32 ∧
      (regs 0x80000000#32 0xFFFFFFFF#32).readReg 2 = 0xFFFFFFFF#32 := by decide

/-- An amount in a register and an immediate that agree in their low 5 bits and in no other. -/
theorem test_witness_ShiftAmountIsTakenModuloThirtyTwo :
    ((regs 0x12345678#32 0xFFFFFFE4#32).readReg 2).extractLsb' 0 5 = (0x0004#16 : Imm).extractLsb' 0 5 ∧
      ((regs 0x12345678#32 0x00000020#32).readReg 2).extractLsb' 0 5 = (0xFFE0#16 : Imm).extractLsb' 0 5 ∧
      (Instr.sar 3 1 2).dest ≠ 0#5 := by decide

theorem test_witness_ShiftsAreMultiplicationAndFloorDivision :
    (Instr.sari 31 1 31#16).dest ≠ 0#5 ∧
      valueIn 31 (exec (.sari 31 1 1#16) (regs 0xFFFFFFFF#32 0#32)) = some 0xFFFFFFFF#32 := by decide

/-- A register beside the destination, and x[0] as the destination. -/
theorem test_witness_LdhiThenOriBuildsAnyConstant :
    (1#5 : RegNum) ≠ 3#5 ∧ (1#5 : RegNum) ≠ 0#5 ∧
      valueIn 3 (exec (.ldhi 3 0x1234#16) (regs 0#32 0#32)) = some 0x12340000#32 := by decide

theorem test_witness_ZeroRegisterIdioms :
    (Instr.xnor 3 1 0).dest ≠ 0#5 ∧ valueIn 3 (exec (.sub 3 0 1) (regs 0x12345678#32 0#32)) = some 0xEDCBA988#32 ∧
      valueIn 3 (exec (.xnor 3 1 0) (regs 0x12345678#32 0#32)) = some 0xEDCBA987#32 := by decide

/-- Operands at the ends of their ranges. -/
theorem test_witness_DecodeOfEncodeIsTheInstruction :
    (Instr.sari 31 31 0x001F#16).wellFormed = true ∧ (Instr.ldhi 0 0xFFFF#16).wellFormed = true ∧
      encode (.sari 31 31 0x001F#16) = 0x77FF001F#32 := by decide

/-- A word of each format with every ignored bit set. -/
theorem test_witness_EncodeOfDecodeIsTheCanonicalWord :
    decode 0x00221FFF#32 = .instr (.add 3 1 2) ∧ encode (.add 3 1 2) = 0x00221800#32 ∧
      decode 0x0423FFFF#32 = .instr (.addi 3 1 0xFFFF#16) ∧
      decode 0x6423FFE4#32 = .instr (.slli 3 1 4#16) ∧ encode (.slli 3 1 4#16) = 0x64230004#32 ∧
      decode 0x7FE3BEEF#32 = .instr (.ldhi 3 0xBEEF#16) ∧ encode (.ldhi 3 0xBEEF#16) = 0x7C03BEEF#32 := by decide

/-- A word of each verdict, and an instruction. -/
theorem test_witness_DecoderVerdicts :
    (0x7BFFFFFF#32 : Word).extractLsb' 26 6 = 0x1E#6 ∧ (0x80000000#32 : Word).getLsbD 31 = true ∧
      decode 0x77FFFFFF#32 = .instr (.sari 31 31 31#16) := by decide

theorem test_witness_AssemblerAcceptsEveryListing :
    (Instr.addi 31 0 0x8000#16).wellFormed = true ∧ (Instr.slli 0 31 31#16).wellFormed = true ∧
      listing (.addi 31 0 0x8000#16) = ("addi", [.reg 31, .reg 0, .num (-32768)]) := by decide

/-- A launched state and the state its step gives. -/
theorem test_witness_StepKeepsTheLaunchPremises :
    LaunchPremises (onWord 0x00221800#32 1#32 2#32) ∧
      (pcOf (step (onWord 0x00221800#32 1#32 2#32))).isSome = true := by decide

/-- The first and the last initial register. -/
theorem test_witness_LaunchSetsTheGivenArguments :
    0 < 31 ∧ 30 < 31 ∧ (regs 11#32 22#32).readReg 1 = 11#32 ∧ (regs 11#32 22#32).readReg 31 = 0xA5A5001F#32 := by decide

/-- A run that has come to END after one step. -/
theorem test_witness_RunsAreStraightLineAndPrecise :
    let s : State := { onWord 0x00221800#32 1#32 2#32 with endAddr := 0x00001004#32 }
    let u : State := (s.writeReg 3 3#32).advance
    runFor 1 s = .running u ∧ u.faultRecord = none ∧ Aligned u.pc ∧ Aligned u.endAddr ∧ u.pc = u.endAddr ∧
      runFor 2 s = .ended u := by decide

/-- The first word of program P1 at 0x1000 and, as in program P6, at 0xC0000100. -/
theorem test_witness_RunsDoNotDependOnWhereTheProgramStands :
    let s : State := { onWord 0x7C011234#32 1#32 2#32 with endAddr := 0x00001004#32 }
    let s' : State :=
      { s with pc := 0xC0000100#32, endAddr := 0xC0000104#32, program := Memory.placeWord [] 0xC0000100#32 0x7C011234#32 }
    (∀ r, s.readReg r = s'.readReg r) ∧ s.faultRecord = none ∧ s'.faultRecord = none ∧ Aligned s.pc ∧ Aligned s'.pc ∧
      Aligned s.endAddr ∧ Aligned s'.endAddr ∧ s.endAddr - s.pc = s'.endAddr - s'.pc ∧
      (∀ j, j < 2 →
        s.program.word (s.pc + BitVec.ofNat 32 (4 * j)) = s'.program.word (s'.pc + BitVec.ofNat 32 (4 * j))) ∧
      (runFor 2 s).kind = .ended ∧ (runFor 2 s').kind = .ended := by decide

/-- The word beside the one placed, seen from an address inside the word. -/
theorem test_witness_PlacedWordIsTheWordFetched :
    (0x00001004#32 : Word) ≠ alignDown 0x00001002#32 ∧ alignDown 0xFFFFFFFF#32 = 0xFFFFFFFC#32 ∧
      (Memory.placeWord [] 0xFFFFFFFF#32 0x12345678#32).word 0xFFFFFFFC#32 = some 0x12345678#32 := by decide

/-- A state that fetches, and one that does not: misaligned, and with a fault recorded. -/
theorem test_witness_PlacedInstructionIsTheNextToRun :
    decode 0x7C03BEEF#32 = .instr (.ldhi 3 0xBEEF#16) ∧ Fetches (regs 1#32 2#32) ∧
      valueIn 3 (step ((regs 1#32 2#32).withFetchWord 32 0x7C03BEEF)) = some 0xBEEF0000#32 ∧
      valueIn 3 (step (State.withFetchWord
        { (regs 1#32 2#32).recordFault (.divisionByZero 0#32) with pc := 0xFFFFFFFF#32, endAddr := 0xFFFFFFFD#32 }
        32 0x7C03BEEF)) = some 0xBEEF0000#32 := by decide

end Sys2Proof.Machine.Tests
end

/-! PROOFS. An instruction reads only its source registers and writes only its destination (spec R23). -/

namespace Sys2Proof.Machine

/-- From two states that agree on its source registers an instruction gets one divisor test and one value (R23). A meaning
that is a plain completion is the divide whose test is `false`. -/
theorem exec_eq_divide_of_sources_agree {i : Instr} {s s' : State}
    (hagree : ∀ r ∈ i.sources, s.readReg r = s'.readReg r) :
    ∃ z v, exec i s = s.divide z i.dest v ∧ exec i s' = s'.divide z i.dest v := by
  cases i
  case div rr rx ry | divu rr rx ry | rem rr rx ry | remu rr rx ry =>
    have hx : s.readReg rx = s'.readReg rx := hagree rx (.head _)
    have hy : s.readReg ry = s'.readReg ry := hagree ry (.tail _ (.head _))
    refine ⟨_, _, rfl, ?_⟩
    rw [hx, hy]
    rfl
  case divi rr rx imm | divui rr rx imm | remi rr rx imm | remui rr rx imm =>
    have hx : s.readReg rx = s'.readReg rx := hagree rx (.head _)
    refine ⟨_, _, rfl, ?_⟩
    rw [hx]
    rfl
  case add rr rx ry | sub rr rx ry | mul rr rx ry | mulu rr rx ry | and rr rx ry | or rr rx ry | xor rr rx ry |
      xnor rr rx ry | sll rr rx ry | slr rr rx ry | sar rr rx ry =>
    have hx : s.readReg rx = s'.readReg rx := hagree rx (.head _)
    have hy : s.readReg ry = s'.readReg ry := hagree ry (.tail _ (.head _))
    refine ⟨false, _, rfl, ?_⟩
    rw [hx, hy]
    rfl
  case addi rr rx imm | subi rr rx imm | muli rr rx imm | mului rr rx imm | andi rr rx imm | ori rr rx imm |
      xori rr rx imm | xnori rr rx imm | slli rr rx imm | slri rr rx imm | sari rr rx imm =>
    have hx : s.readReg rx = s'.readReg rx := hagree rx (.head _)
    refine ⟨false, _, rfl, ?_⟩
    rw [hx]
    rfl
  case ldhi => exact ⟨false, _, rfl, rfl⟩

/-- Every register but the destination is as before where an instruction completes (R23). -/
theorem readReg_of_exec_next {i : Instr} {s t : State} (h : exec i s = .next t) {r : RegNum} (hr : r ≠ i.dest) :
    t.readReg r = s.readReg r := by
  obtain ⟨_, v, rfl⟩ := exec_next h
  rw [readReg_completed, if_neg (fun hc => hr hc.1)]

/-- Two completions that write one value to one register leave the same in it, x[0] included (R22). -/
theorem readReg_completed_self_eq (s s' : State) (rr : RegNum) (v : Word) :
    (s'.writeReg rr v).advance.readReg rr = (s.writeReg rr v).advance.readReg rr := by
  rw [readReg_completed, readReg_completed]
  by_cases hrr : rr = 0#5 <;> simp [hrr]

/-- Settles O33: the divisor test and the value are the same in both states, so both complete with it or both fault. -/
theorem instructionsTouchOnlyTheRegistersTheirFieldsName :
    Obligations.InstructionsTouchOnlyTheRegistersTheirFieldsName := by
  intro i s s' hagree
  obtain ⟨z, v, hs, hs'⟩ := exec_eq_divide_of_sources_agree hagree
  cases z with
  | false =>
    rw [divide_of_ne rfl] at hs hs'
    refine ⟨fun t ht => ⟨fun r hr => readReg_of_exec_next ht hr, _, hs', ?_⟩, fun ⟨f, hf⟩ => ?_⟩
    · obtain rfl := complete_eq_next.mp (hs ▸ ht)
      exact readReg_completed_self_eq s s' i.dest v
    · rw [hs] at hf
      cases hf
  | true =>
    rw [divide_of_zero rfl] at hs hs'
    refine ⟨fun t ht => ?_, fun _ => ⟨_, hs'⟩⟩
    rw [hs] at ht
    cases ht

end Sys2Proof.Machine

/-! PROOFS. The add, subtract and multiply instructions (spec R100 to R108): encoding line, assembler line, result. -/

namespace Sys2Proof.Machine

/-! ### encoding lines -/

/-- An RRR encoding line from what the decoder does with the opcode of its bits (R61, R70). -/
theorem encodedRRR_of_opcode {bits : Word} {op : Opcode} {c : RegNum → RegNum → RegNum → Instr}
    (hbits : opField bits = op)
    (hdecode : ∀ w, opField w = op → decode w = .instr (c (rrFieldRRR w) (rxField w) (ryField w))) :
    EncodedRRR bits c :=
  fun w hw => hdecode w ((opField_of_mask hw).trans hbits)

/-- An RRI encoding line from what the decoder does with the opcode of its bits (R62, R70). -/
theorem encodedRRI_of_opcode {bits : Word} {op : Opcode} {c : RegNum → RegNum → Imm → Instr}
    (hbits : opField bits = op)
    (hdecode : ∀ w, opField w = op → decode w = .instr (c (rrFieldRRI w) (rxField w) (immField w))) :
    EncodedRRI bits c :=
  fun w hw => hdecode w ((opField_of_mask hw).trans hbits)

/-! ### assembler lines -/

/-- A line of two registers and a number is an RRI line (R80). -/
theorem assemble_rri (m : String) (rr rx : RegNum) (v : Int) :
    assemble m [.reg rr, .reg rx, .num v] = assembleRRI m rr rx v := rfl

/-- The assembler line of a sign-extending form: -32768 to 32767 (R80). -/
theorem assembledRRI_of_asmSigned {m : String} {c : RegNum → RegNum → Imm → Instr}
    (h : ∀ rr rx v, assembleRRI m rr rx v = c rr rx <$> asmSigned v) : AssembledRRI m (-32768) 32767 c := by
  intro rr rx v
  rw [assemble_rri, h, asmSigned]
  split <;> rfl

/-- The assembler line of a zero-extending form: 0 to 65535 (R80). -/
theorem assembledRRI_of_asmUnsigned {m : String} {c : RegNum → RegNum → Imm → Instr}
    (h : ∀ rr rx v, assembleRRI m rr rx v = c rr rx <$> asmUnsigned v) : AssembledRRI m 0 65535 c := by
  intro rr rx v
  rw [assemble_rri, h, asmUnsigned]
  split <;> rfl

/-! ### results -/

/-- The unsigned reading of a sign-extended immediate is its value, up to a multiple of 2^32 (R7, R9). -/
theorem unsigned_sext32_modEq (i : Imm) : (unsigned (sext32 i) : Int) ≡ i.toInt [ZMOD 2 ^ 32] := by
  rw [← signed_sext32]
  exact (signed_emod (sext32 i)).symm

/-! ### the instructions -/

/-- Settles O1: both readings are naturals, so the truncated sum is the sum of naturals modulo 2^32. -/
theorem addWritesTheSum : Obligations.AddWritesTheSum := by
  refine ⟨encodedRRR_of_opcode (op := 0x00#6) rfl fun w hop => by simp [decode, hop], fun _ _ _ => rfl, ?_⟩
  intro rr rx ry s
  exact completes_of_complete rfl fun _ => trunc32_natCast_toNat (unsigned (s.readReg rx) + unsigned (s.readReg ry))

/-- Settles O2: the unsigned reading of the extended immediate may stand for its signed value modulo 2^32. -/
theorem addiWritesTheSumWithTheSignedImmediate : Obligations.AddiWritesTheSumWithTheSignedImmediate := by
  refine ⟨encodedRRI_of_opcode (op := 0x01#6) rfl fun w hop => by simp [decode, hop],
    assembledRRI_of_asmSigned fun _ _ _ => rfl, ?_⟩
  intro rr rx imm s
  exact completes_of_complete rfl fun _ => (trunc32_toNat _).trans ((unsigned_sext32_modEq imm).add_left _)

/-- Settles O3: truncation keeps the residue of the difference of the unsigned readings, negative or not. -/
theorem subWritesTheDifference : Obligations.SubWritesTheDifference := by
  refine ⟨encodedRRR_of_opcode (op := 0x02#6) rfl fun w hop => by simp [decode, hop], fun _ _ _ => rfl, ?_⟩
  intro rr rx ry s
  exact completes_of_complete rfl fun _ => trunc32_toNat _

/-- Settles O4: the unsigned reading of the extended subtrahend may stand for its signed value modulo 2^32. -/
theorem subiWritesTheDifferenceWithTheSignedImmediate : Obligations.SubiWritesTheDifferenceWithTheSignedImmediate := by
  refine ⟨encodedRRI_of_opcode (op := 0x03#6) rfl fun w hop => by simp [decode, hop],
    assembledRRI_of_asmSigned fun _ _ _ => rfl, ?_⟩
  intro rr rx imm s
  exact completes_of_complete rfl fun _ => (trunc32_toNat _).trans ((unsigned_sext32_modEq imm).sub_left _)

/-- Settles O5: truncation keeps the residue of the signed product. -/
theorem mulWritesTheSignedProduct : Obligations.MulWritesTheSignedProduct := by
  refine ⟨encodedRRR_of_opcode (op := 0x04#6) rfl fun w hop => by simp [decode, hop], fun _ _ _ => rfl, ?_⟩
  intro rr rx ry s
  exact completes_of_complete rfl fun _ => trunc32_toNat _

/-- Settles O6: sign extension keeps the signed reading of the immediate, truncation the residue of the product. -/
theorem muliWritesTheSignedProduct : Obligations.MuliWritesTheSignedProduct := by
  refine ⟨encodedRRI_of_opcode (op := 0x05#6) rfl fun w hop => by simp [decode, hop],
    assembledRRI_of_asmSigned fun _ _ _ => rfl, ?_⟩
  intro rr rx imm s
  refine completes_of_complete rfl fun _ => ?_
  rw [trunc32_toNat, signed_sext32]
  rfl

/-- Settles O7: both readings are naturals, so the truncated product is the product of naturals modulo 2^32. -/
theorem muluWritesTheUnsignedProduct : Obligations.MuluWritesTheUnsignedProduct := by
  refine ⟨encodedRRR_of_opcode (op := 0x06#6) rfl fun w hop => by simp [decode, hop], fun _ _ _ => rfl, ?_⟩
  intro rr rx ry s
  exact completes_of_complete rfl fun _ => trunc32_natCast_toNat (unsigned (s.readReg rx) * unsigned (s.readReg ry))

/-- Settles O8: zero extension keeps the unsigned reading of the immediate, so the product is one of naturals. -/
theorem muluiWritesTheUnsignedProduct : Obligations.MuluiWritesTheUnsignedProduct := by
  refine ⟨encodedRRI_of_opcode (op := 0x07#6) rfl fun w hop => by simp [decode, hop],
    assembledRRI_of_asmUnsigned fun _ _ _ => rfl, ?_⟩
  intro rr rx imm s
  refine completes_of_complete rfl fun _ => ?_
  rw [unsigned_zext32]
  exact trunc32_natCast_toNat (unsigned (s.readReg rx) * imm.toNat)

end Sys2Proof.Machine

/-! PROOFS. The register forms of the unsigned divide and remainder (spec R124, R128, R130): encoding line, assembler
line, fault, result. -/

namespace Sys2Proof.Machine

/-- An instruction whose meaning is a divide with a divisor that is 0 raises the fault (R120, R200). -/
theorem raisesDivisionByZero_of_divide {i : Instr} {s : State} {z : Bool} {v : Word}
    (h : exec i s = s.divide z i.dest v) (hz : z = true) : RaisesDivisionByZero i s :=
  ⟨s.pc, h.trans (divide_of_zero hz _ _)⟩

/-- A natural that is no greater than a word's unsigned reading survives truncation (R7, R8). -/
theorem trunc32_natCast_toNat_of_le {n : Nat} {w : Word} (h : n ≤ unsigned w) : (trunc32 (n : Int)).toNat = n := by
  rw [trunc32_natCast_toNat]
  exact Nat.mod_eq_of_lt (h.trans_lt (unsigned_lt w))

/-- Settles O11: the quotient is at most the dividend, so truncation keeps it. -/
theorem divuWritesTheUnsignedQuotient : Obligations.DivuWritesTheUnsignedQuotient := by
  refine ⟨encodedRRR_of_opcode (op := 0x0A#6) rfl fun w hop => by simp [decode, hop], fun _ _ _ => rfl, ?_⟩
  intro rr rx ry s
  refine ⟨fun hzero => raisesDivisionByZero_of_divide rfl (beq_iff_eq.mpr hzero), fun hne => ?_⟩
  have hle : udiv (unsigned (s.readReg rx)) (unsigned (s.readReg ry)) ≤ unsigned (s.readReg rx) := Nat.div_le_self _ _
  exact completes_of_divide rfl (beq_false_of_ne hne) fun _ => trunc32_natCast_toNat_of_le hle

/-- Settles O15: the remainder is at most the dividend, so truncation keeps it. -/
theorem remuWritesTheUnsignedRemainder : Obligations.RemuWritesTheUnsignedRemainder := by
  refine ⟨encodedRRR_of_opcode (op := 0x0E#6) rfl fun w hop => by simp [decode, hop], fun _ _ _ => rfl, ?_⟩
  intro rr rx ry s
  refine ⟨fun hzero => raisesDivisionByZero_of_divide rfl (beq_iff_eq.mpr hzero), fun hne => ?_⟩
  have hle : urem (unsigned (s.readReg rx)) (unsigned (s.readReg ry)) ≤ unsigned (s.readReg rx) := Nat.sub_le _ _
  exact completes_of_divide rfl (beq_false_of_ne hne) fun _ =>
    (trunc32_natCast_toNat_of_le hle).trans (urem_eq _ _)

end Sys2Proof.Machine

/-! PROOFS. The bitwise instructions (spec R140 to R148): encoding line, assembler line, result. -/

namespace Sys2Proof.Machine

/-- A function of one bit of a zero-extended immediate is, from bit 16 up, that function of 0 (R9). -/
theorem apply_zext32_getLsbD (f : Bool → Bool) (i : Imm) (k : Nat) :
    f ((zext32 i).getLsbD k) = if k < 16 then f (i.getLsbD k) else f false := by
  rw [zext32_getLsbD]
  split
  · rfl
  · rw [BitVec.getLsbD_of_ge i k (by omega)]

/-- Settles O17: a bit of the AND is the AND of the operands' bits. -/
theorem andWritesTheBitwiseAnd : Obligations.AndWritesTheBitwiseAnd := by
  refine ⟨encodedRRR_of_opcode (op := 0x10#6) rfl fun w hop => by simp [decode, hop], fun _ _ _ => rfl, ?_⟩
  intro rr rx ry s
  exact completes_of_complete rfl fun _ _ _ => BitVec.getLsbD_and

/-- Settles O18: the zeros of the extended immediate clear bits 31:16. -/
theorem andiWritesTheBitwiseAnd : Obligations.AndiWritesTheBitwiseAnd := by
  refine ⟨encodedRRI_of_opcode (op := 0x11#6) rfl fun w hop => by simp [decode, hop],
    assembledRRI_of_asmUnsigned fun _ _ _ => rfl, ?_⟩
  intro rr rx imm s
  refine completes_of_complete rfl fun _ k _ => ?_
  rw [BitVec.getLsbD_and, apply_zext32_getLsbD ((s.readReg rx).getLsbD k && ·), Bool.and_false]

/-- Settles O19: a bit of the OR is the OR of the operands' bits. -/
theorem orWritesTheBitwiseOr : Obligations.OrWritesTheBitwiseOr := by
  refine ⟨encodedRRR_of_opcode (op := 0x12#6) rfl fun w hop => by simp [decode, hop], fun _ _ _ => rfl, ?_⟩
  intro rr rx ry s
  exact completes_of_complete rfl fun _ _ _ => BitVec.getLsbD_or

/-- Settles O20: the zeros of the extended immediate keep bits 31:16. -/
theorem oriWritesTheBitwiseOr : Obligations.OriWritesTheBitwiseOr := by
  refine ⟨encodedRRI_of_opcode (op := 0x13#6) rfl fun w hop => by simp [decode, hop],
    assembledRRI_of_asmUnsigned fun _ _ _ => rfl, ?_⟩
  intro rr rx imm s
  refine completes_of_complete rfl fun _ k _ => ?_
  rw [BitVec.getLsbD_or, apply_zext32_getLsbD ((s.readReg rx).getLsbD k || ·), Bool.or_false]

/-- Settles O21: a bit of the XOR is the XOR of the operands' bits. -/
theorem xorWritesTheBitwiseXor : Obligations.XorWritesTheBitwiseXor := by
  refine ⟨encodedRRR_of_opcode (op := 0x14#6) rfl fun w hop => by simp [decode, hop], fun _ _ _ => rfl, ?_⟩
  intro rr rx ry s
  exact completes_of_complete rfl fun _ _ _ => BitVec.getLsbD_xor

/-- Settles O22: the zeros of the extended immediate keep bits 31:16. -/
theorem xoriWritesTheBitwiseXor : Obligations.XoriWritesTheBitwiseXor := by
  refine ⟨encodedRRI_of_opcode (op := 0x15#6) rfl fun w hop => by simp [decode, hop],
    assembledRRI_of_asmUnsigned fun _ _ _ => rfl, ?_⟩
  intro rr rx imm s
  refine completes_of_complete rfl fun _ k _ => ?_
  rw [BitVec.getLsbD_xor, apply_zext32_getLsbD ((s.readReg rx).getLsbD k ^^ ·), Bool.xor_false]

/-- Settles O23: the complement of an XOR is 1 exactly where the operands' bits are equal. -/
theorem xnorWritesTheBitwiseEquivalence : Obligations.XnorWritesTheBitwiseEquivalence := by
  refine ⟨encodedRRR_of_opcode (op := 0x16#6) rfl fun w hop => by simp [decode, hop], fun _ _ _ => rfl, ?_⟩
  intro rr rx ry s
  exact completes_of_complete rfl fun _ _ hk => xnorWord_getLsbD _ _ hk

/-- Settles O24: equality with the zeros of the extended immediate complements bits 31:16. -/
theorem xnoriWritesTheBitwiseEquivalence : Obligations.XnoriWritesTheBitwiseEquivalence := by
  refine ⟨encodedRRI_of_opcode (op := 0x17#6) rfl fun w hop => by simp [decode, hop],
    assembledRRI_of_asmUnsigned fun _ _ _ => rfl, ?_⟩
  intro rr rx imm s
  refine completes_of_complete rfl fun _ k hk => ?_
  rw [xnorWord_getLsbD _ _ hk, apply_zext32_getLsbD ((s.readReg rx).getLsbD k == ·), beq_false]

end Sys2Proof.Machine

/-! PROOFS. The shift instructions (spec R160 to R166): the amount modulo 32, then encoding line, assembler line, result. -/

namespace Sys2Proof.Machine

/-! ### encoding and assembler lines of the shift-immediate forms -/

/-- The immediate the decoder reads for a shift is bits 4:0 under 11 zeros (R73). -/
theorem shiftImmField_eq_append (w : Word) : shiftImmField w = 0#11 ++ w.extractLsb' 0 5 :=
  BitVec.setWidth_eq_append (by decide)

/-- A shift-immediate encoding line from what the decoder does with the opcode of its bits (R62, R70, R73). -/
theorem encodedShiftImm_of_opcode {bits : Word} {op : Opcode} {c : RegNum → RegNum → Imm → Instr}
    (hbits : opField bits = op)
    (hdecode : ∀ w, opField w = op → decode w = .instr (c (rrFieldRRI w) (rxField w) (shiftImmField w))) :
    EncodedShiftImm bits c := by
  intro w hw
  rw [hdecode w ((opField_of_mask hw).trans hbits), shiftImmField_eq_append]
  rfl

/-- The assembler line of a shift-immediate form: 0 to 31 (R80). -/
theorem assembledRRI_of_asmShift {m : String} {c : RegNum → RegNum → Imm → Instr}
    (h : ∀ rr rx v, assembleRRI m rr rx v = c rr rx <$> asmShift v) : AssembledRRI m 0 31 c := by
  intro rr rx v
  rw [assemble_rri, h, asmShift]
  split <;> rfl

/-! ### the shift amount -/

/-- Operands that agree in their low 5 bits ask for the same shift amount (R160). -/
theorem shiftOfReg_eq_shiftOfImm {y : Word} {imm : Imm} (h : y.extractLsb' 0 5 = imm.extractLsb' 0 5) :
    shiftOfReg y = shiftOfImm imm :=
  congrArg BitVec.toNat h

/-- Settles O44: the low 5 bits of an operand are its unsigned value modulo 32, and a shift depends on its second
operand through them alone. -/
theorem shiftAmountIsTakenModuloThirtyTwo : Obligations.ShiftAmountIsTakenModuloThirtyTwo := by
  refine ⟨fun rr rx ry s => ?_, fun rr rx imm s => ?_, fun rr rx ry imm s hlow => ?_⟩
  · rw [← shiftOfReg_eq]
    exact ⟨completes_of_complete rfl fun _ => rfl, completes_of_complete rfl fun _ => rfl,
      completes_of_complete rfl fun _ => rfl⟩
  · rw [← shiftOfImm_eq]
    exact ⟨completes_of_complete rfl fun _ => rfl, completes_of_complete rfl fun _ => rfl,
      completes_of_complete rfl fun _ => rfl⟩
  · have hamount : shiftOfReg (s.readReg ry) = shiftOfImm imm := shiftOfReg_eq_shiftOfImm hlow
    exact ⟨congrArg (fun n => s.complete rr (shiftLeft (s.readReg rx) n)) hamount,
      congrArg (fun n => s.complete rr (shiftRightLogical (s.readReg rx) n)) hamount,
      congrArg (fun n => s.complete rr (shiftRightArith (s.readReg rx) n)) hamount⟩

/-! ### the instructions -/

/-- Settles O25: bit k of a left shift by the low 5 bits of x[ry]. -/
theorem sllMovesBitsUpAndFillsWithZeros : Obligations.SllMovesBitsUpAndFillsWithZeros := by
  refine ⟨encodedRRR_of_opcode (op := 0x18#6) rfl fun w hop => by simp [decode, hop], fun _ _ _ => rfl, ?_⟩
  intro rr rx ry s
  rw [← shiftOfReg_eq]
  exact completes_of_complete rfl fun _ _ hk => shiftLeft_getLsbD _ _ hk

/-- Settles O26: bit k of a left shift by the low 5 bits of the immediate. -/
theorem slliMovesBitsUpAndFillsWithZeros : Obligations.SlliMovesBitsUpAndFillsWithZeros := by
  refine ⟨encodedShiftImm_of_opcode (op := 0x19#6) rfl fun w hop => by simp [decode, hop],
    assembledRRI_of_asmShift fun _ _ _ => rfl, ?_⟩
  intro rr rx imm s
  rw [← shiftOfImm_eq]
  exact completes_of_complete rfl fun _ _ hk => shiftLeft_getLsbD _ _ hk

/-- Settles O27: bit k of a logical right shift by the low 5 bits of x[ry]. -/
theorem slrMovesBitsDownAndFillsWithZeros : Obligations.SlrMovesBitsDownAndFillsWithZeros := by
  refine ⟨encodedRRR_of_opcode (op := 0x1A#6) rfl fun w hop => by simp [decode, hop], fun _ _ _ => rfl, ?_⟩
  intro rr rx ry s
  rw [← shiftOfReg_eq]
  exact completes_of_complete rfl fun _ k _ => shiftRightLogical_getLsbD _ _ k

/-- Settles O28: bit k of a logical right shift by the low 5 bits of the immediate. -/
theorem slriMovesBitsDownAndFillsWithZeros : Obligations.SlriMovesBitsDownAndFillsWithZeros := by
  refine ⟨encodedShiftImm_of_opcode (op := 0x1B#6) rfl fun w hop => by simp [decode, hop],
    assembledRRI_of_asmShift fun _ _ _ => rfl, ?_⟩
  intro rr rx imm s
  rw [← shiftOfImm_eq]
  exact completes_of_complete rfl fun _ k _ => shiftRightLogical_getLsbD _ _ k

/-- Settles O29: bit k of an arithmetic right shift by the low 5 bits of x[ry]. -/
theorem sarMovesBitsDownAndReplicatesTheSign : Obligations.SarMovesBitsDownAndReplicatesTheSign := by
  refine ⟨encodedRRR_of_opcode (op := 0x1C#6) rfl fun w hop => by simp [decode, hop], fun _ _ _ => rfl, ?_⟩
  intro rr rx ry s
  rw [← shiftOfReg_eq]
  exact completes_of_complete rfl fun _ _ hk => shiftRightArith_getLsbD _ _ hk

/-- Settles O30: bit k of an arithmetic right shift by the low 5 bits of the immediate. -/
theorem sariMovesBitsDownAndReplicatesTheSign : Obligations.SariMovesBitsDownAndReplicatesTheSign := by
  refine ⟨encodedShiftImm_of_opcode (op := 0x1D#6) rfl fun w hop => by simp [decode, hop],
    assembledRRI_of_asmShift fun _ _ _ => rfl, ?_⟩
  intro rr rx imm s
  rw [← shiftOfImm_eq]
  exact completes_of_complete rfl fun _ _ hk => shiftRightArith_getLsbD _ _ hk

end Sys2Proof.Machine

/-! PROOFS. LDHI (spec R180): encoding line, assembler line, result. -/

namespace Sys2Proof.Machine

/-- The assembler line of LDHI: two operands, and an immediate of 0 to 65535 (R80). -/
theorem assemble_ldhi (rr : RegNum) (v : Int) :
    assemble "ldhi" [.reg rr, .num v] =
      if 0 ≤ v ∧ v ≤ 65535 then some (.ldhi rr (BitVec.ofInt 16 v)) else none := by
  change Instr.ldhi rr <$> asmUnsigned v = _
  rw [asmUnsigned]
  split <;> rfl

/-- Settles O31: the zeros stand under the placed immediate, so bit k from bit 16 up is bit k - 16 of the immediate. -/
theorem ldhiPlacesTheImmediateInTheUpperHalf : Obligations.LdhiPlacesTheImmediateInTheUpperHalf := by
  refine ⟨fun w hw => ?_, assemble_ldhi, fun rr imm s => ?_⟩
  · have hop : opField w = 0x1F#6 := opField_of_mask hw
    simp [decode, hop, rrFieldRRI, immField]
  · exact completes_of_complete rfl fun _ k _ => placeHigh_getLsbD imm k

end Sys2Proof.Machine

/-! PROOFS. The Division by Zero Fault, and the complete list of step outcomes (spec R200, R208). -/

namespace Sys2Proof.Machine

/-! ### the outcome of an instruction -/

/-- Every instruction completes or raises the Division by Zero Fault on a zero divisor (R208). -/
theorem exec_completes_or_raises (i : Instr) (s : State) :
    (∃ t, exec i s = .next t) ∨ (zeroDivisor i s = true ∧ RaisesDivisionByZero i s) := by
  rcases exec_cases i s with ⟨_, v, hcomplete⟩ | ⟨hzero, hraise⟩
  · exact .inl ⟨_, hcomplete⟩
  · exact .inr ⟨hzero, s.pc, hraise⟩

/-- Settles O35: an instruction either completes, its divisor not being 0, or raises this fault, its divisor being 0. -/
theorem exactlyEightInstructionsRaiseDivisionByZero :
    Obligations.ExactlyEightInstructionsRaiseDivisionByZero := by
  intro i s
  constructor
  · rintro ⟨p, hfault⟩
    exact (exec_fault hfault).1
  · intro hzero
    rcases exec_cases i s with ⟨hne, _⟩ | ⟨_, hraise⟩
    · exact absurd (hzero.symm.trans hne) (by decide)
    · exact ⟨s.pc, hraise⟩

/-! ### the verdict on a word -/

/-- The opcode of a word with bit 31 clear is below 100000 (R61, R76). -/
theorem opField_toNat_lt {w : Word} (h : w.getLsbD 31 = false) : (opField w).toNat < 32 := by
  have hmsb : (opField w).msb = false := by simpa [opField, BitVec.msb_eq_getLsbD_last] using h
  exact BitVec.toNat_lt_of_msb_false hmsb

/-- Only a word with bit 31 set is refused: the decoder names each of the 32 opcodes below 100000 (R70, R76). -/
theorem getLsbD_of_decode_refused {w : Word} (h : decode w = .refused) : w.getLsbD 31 = true := by
  by_contra hbit
  have hlt : (opField w).toNat < 32 := opField_toNat_lt (Bool.eq_false_of_not_eq_true hbit)
  obtain ⟨k, hk, hop⟩ : ∃ k < 32, opField w = BitVec.ofNat 6 k := ⟨_, hlt, by simp⟩
  interval_cases k <;> simp [decode, hop] at h

/-- Only a word with opcode 011110 is illegal (R75). -/
theorem opField_of_decode_illegalInstruction {w : Word} (h : decode w = .illegalInstruction) :
    opField w = 0x1E#6 := by
  unfold decode at h
  split at h
  all_goals cases h
  assumption

/-! ### the outcome of a step that fetches -/

/-- A fetched instruction is executed, and the step is nothing more (R27). -/
theorem step_of_decode_instr {s : State} (h : Fetches s) {w : Word} (hw : s.program.word s.pc = some w) {i : Instr}
    (hi : decode w = .instr i) : step s = exec i s := by
  rw [step_of_word h hw, State.decoded, hi]

/-- A fetched word with the illegal opcode faults with the pc and the word (R75, R207). -/
theorem step_of_decode_illegalInstruction {s : State} (h : Fetches s) {w : Word}
    (hw : s.program.word s.pc = some w) (hi : decode w = .illegalInstruction) :
    step s = .fault (.illegalInstruction s.pc w) := by
  rw [step_of_word h hw, State.decoded, hi]
  rfl

/-- A fetched word of an opcode outside the section is refused (R76). -/
theorem step_of_decode_refused {s : State} (h : Fetches s) {w : Word} (hw : s.program.word s.pc = some w)
    (hi : decode w = .refused) : step s = .refused (.outsideSection s.pc w) := by
  rw [step_of_word h hw, State.decoded, hi]

/-- Where PROGRAM has no word at the pc the step is stuck (R43). -/
theorem step_of_no_word {s : State} (h : Fetches s) (hw : s.program.word s.pc = none) :
    step s = .refused (.noWordAt s.pc) := by
  rw [step, front_of_fetches h, hw]

/-- Settles O40: what an instruction can do, the verdicts of the decoder, and the step by whether PROGRAM has a word at
the pc and by the verdict on it. -/
theorem stepOutcomesAreTheListedOnes : Obligations.StepOutcomesAreTheListedOnes := by
  refine ⟨exec_completes_or_raises, fun w hbit hop => ?_, fun s hs => ?_⟩
  · cases hd : decode w with
    | instr i => exact ⟨i, rfl⟩
    | illegalInstruction => exact absurd (opField_of_decode_illegalInstruction hd) hop
    | refused => exact absurd (hbit.symm.trans (getLsbD_of_decode_refused hd)) (by decide)
  · cases hw : s.program.word s.pc with
    | none => exact .inr (.inr (.inr (.inr ⟨step_of_no_word hs hw, rfl⟩)))
    | some w =>
      cases hd : decode w with
      | instr i =>
        rw [step_of_decode_instr hs hw hd]
        rcases exec_completes_or_raises i s with hnext | ⟨_, hraise⟩
        · exact .inl hnext
        · exact .inr (.inl hraise)
      | illegalInstruction =>
        exact .inr (.inr (.inl ⟨s.pc, w, step_of_decode_illegalInstruction hs hw hd⟩))
      | refused => exact .inr (.inr (.inr (.inl ⟨s.pc, w, step_of_decode_refused hs hw hd⟩)))

end Sys2Proof.Machine

/-! PROOFS. The encoding as a whole (spec R70 to R82): the round trips of encoder and decoder, the verdicts of the decoder,
and the listings the assembler accepts. -/

namespace Sys2Proof.Machine

/-! ### decoding an encoded instruction -/

/-- Settles O48: by cases on the instruction, each the round trip of its own opcode and format. -/
theorem decodeOfEncodeIsTheInstruction : Obligations.DecodeOfEncodeIsTheInstruction := by
  intro i
  cases i with
  | add => exact Laws.RoundTrip.add _ _ _
  | addi => exact Laws.RoundTrip.addi _ _ _
  | sub => exact Laws.RoundTrip.sub _ _ _
  | subi => exact Laws.RoundTrip.subi _ _ _
  | mul => exact Laws.RoundTrip.mul _ _ _
  | muli => exact Laws.RoundTrip.muli _ _ _
  | mulu => exact Laws.RoundTrip.mulu _ _ _
  | mului => exact Laws.RoundTrip.mului _ _ _
  | div => exact Laws.RoundTrip.div _ _ _
  | divi => exact Laws.RoundTrip.divi _ _ _
  | divu => exact Laws.RoundTrip.divu _ _ _
  | divui => exact Laws.RoundTrip.divui _ _ _
  | rem => exact Laws.RoundTrip.rem _ _ _
  | remi => exact Laws.RoundTrip.remi _ _ _
  | remu => exact Laws.RoundTrip.remu _ _ _
  | remui => exact Laws.RoundTrip.remui _ _ _
  | and => exact Laws.RoundTrip.and _ _ _
  | andi => exact Laws.RoundTrip.andi _ _ _
  | or => exact Laws.RoundTrip.or _ _ _
  | ori => exact Laws.RoundTrip.ori _ _ _
  | xor => exact Laws.RoundTrip.xor _ _ _
  | xori => exact Laws.RoundTrip.xori _ _ _
  | xnor => exact Laws.RoundTrip.xnor _ _ _
  | xnori => exact Laws.RoundTrip.xnori _ _ _
  | sll => exact Laws.RoundTrip.sll _ _ _
  | slli => exact Laws.RoundTrip.slli _ _ _
  | slr => exact Laws.RoundTrip.slr _ _ _
  | slri => exact Laws.RoundTrip.slri _ _ _
  | sar => exact Laws.RoundTrip.sar _ _ _
  | sari => exact Laws.RoundTrip.sari _ _ _
  | ldhi => exact Laws.RoundTrip.ldhi _ _

/-! ### the verdicts -/

/-- A word with opcode 011110 is illegal, and no other word is (R75). -/
theorem decode_eq_illegalInstruction_iff (w : Word) : decode w = .illegalInstruction ↔ opField w = 0x1E#6 :=
  ⟨opField_of_decode_illegalInstruction, fun hop => by simp [decode, hop]⟩

/-- A word with bit 31 set is refused, and no other word is (R76). -/
theorem decode_eq_refused_iff (w : Word) : decode w = .refused ↔ w.getLsbD 31 = true := by
  refine ⟨getLsbD_of_decode_refused, fun hbit => ?_⟩
  have hop : (opField w).getLsbD 5 = true := by simpa [opField] using hbit
  unfold decode
  split
  -- the arm that names no opcode; bit 5 of every opcode named is 0
  case h_33 => rfl
  all_goals
    rename_i heq
    rw [heq] at hop
    exact absurd hop (by decide)

/-- What the decoder yields is well-formed: a shift immediate comes canonical, every other operand is legal (R65, R73). -/
theorem wellFormed_of_decode {w : Word} {i : Instr} (h : decode w = .instr i) : i.wellFormed = true := by
  have hshift : (shiftImmField w).isShiftAmount = true := by
    rw [shiftImmField_eq]
    exact isShiftAmount_canonicalShiftImm _
  unfold decode at h
  split at h
  -- the arms of SLLI, SLRI and SARI; the two that answer no instruction; the others
  case h_26 | h_28 | h_30 => cases h; exact hshift
  case h_31 | h_33 => cases h
  all_goals cases h; rfl

/-- Settles O50: the two stops by opcode, and the decoder yields only well-formed instructions. -/
theorem decoderVerdicts : Obligations.DecoderVerdicts := fun w =>
  ⟨decode_eq_illegalInstruction_iff w, decode_eq_refused_iff w, fun _ => wellFormed_of_decode⟩

/-! ### encoding a decoded word -/

/-- The bits of a word that carry information, by its opcode: all but 10:0 in the RRR format, 25:21 in LDHI and 15:5 in the
shift-immediate words (R71, R72, R73). -/
def usedBits (op : Opcode) : Word :=
  if op = 0x1F#6 then 0xFC1FFFFF#32
  else if op.getLsbD 0 = false then 0xFFFFF800#32
  else if op = 0x19#6 ∨ op = 0x1B#6 ∨ op = 0x1D#6 then 0xFFFF001F#32
  else 0xFFFFFFFF#32

/-- The RRR word built from the fields of a word is that word with bits 10:0 cleared (R61, R71). -/
theorem encodeRRR_fields (w : Word) :
    encodeRRR (opField w) (rrFieldRRR w) (rxField w) (ryField w) = w &&& 0xFFFFF800#32 := by
  have hmask : ∀ (k : Nat) (hk : k < 32), (0xFFFFF800#32)[k] = decide (11 ≤ k) := by decide
  ext k hk
  rw [BitVec.getElem_and, hmask k hk]
  simp [encodeRRR, opField, rrFieldRRR, rxField, ryField]
  grind

/-- The RRI word built from the fields of a word is that word (R62). -/
theorem encodeRRI_fields (w : Word) : encodeRRI (opField w) (rrFieldRRI w) (rxField w) (immField w) = w := by
  ext k hk
  simp [encodeRRI, opField, rrFieldRRI, rxField, immField]
  grind

/-- With the shift immediate, bits 15:5 are cleared (R73). -/
theorem encodeRRI_shiftFields (w : Word) :
    encodeRRI (opField w) (rrFieldRRI w) (rxField w) (shiftImmField w) = w &&& 0xFFFF001F#32 := by
  have hmask : ∀ (k : Nat) (hk : k < 32), (0xFFFF001F#32)[k] = decide (k < 5 ∨ 16 ≤ k) := by decide
  ext k hk
  rw [BitVec.getElem_and, hmask k hk]
  simp [encodeRRI, opField, rrFieldRRI, rxField, shiftImmField]
  grind

/-- Without an `rx`, bits 25:21 are cleared (R72). -/
theorem encodeRRI_ldhiFields (w : Word) :
    encodeRRI (opField w) (rrFieldRRI w) 0#5 (immField w) = w &&& 0xFC1FFFFF#32 := by
  have hmask : ∀ (k : Nat) (hk : k < 32), (0xFC1FFFFF#32)[k] = decide (k < 21 ∨ 26 ≤ k) := by decide
  ext k hk
  rw [BitVec.getElem_and, hmask k hk]
  simp [encodeRRI, opField, rrFieldRRI, immField]
  grind

/-- The immediate the decoder reads for a shift is canonical (R73). -/
theorem canonicalShiftImm_shiftImmField (w : Word) : canonicalShiftImm (shiftImmField w) = shiftImmField w := by
  rw [shiftImmField_eq, canonicalShiftImm_idem]

/-- Encoding what a word decodes to keeps exactly its used bits (R71 to R73, R82). -/
theorem encode_of_decode {w : Word} {i : Instr} (h : decode w = .instr i) : encode i = w &&& usedBits (opField w) := by
  have hrrr := encodeRRR_fields w
  have hrri := encodeRRI_fields w
  have hshift := encodeRRI_shiftFields w
  have hldhi := encodeRRI_ldhiFields w
  unfold decode at h
  split at h
  case h_31 | h_33 => cases h
  all_goals
    rename_i hop
    cases h
    rw [hop] at hrrr hrri hshift hldhi ⊢
  -- the shift immediates, LDHI, the other RRI forms, the RRR forms
  case h_26 | h_28 | h_30 =>
    rw [encode, canonicalShiftImm_shiftImmField]
    exact hshift
  case h_32 => exact hldhi
  case h_2 | h_4 | h_6 | h_8 | h_10 | h_12 | h_14 | h_16 | h_18 | h_20 | h_22 | h_24 =>
    exact hrri.trans (BitVec.and_allOnes).symm
  all_goals exact hrrr

/-- Settles O49: encoding keeps the used bits, and the instruction, being well-formed, is what its word decodes to. -/
theorem encodeOfDecodeIsTheCanonicalWord : Obligations.EncodeOfDecodeIsTheCanonicalWord := by
  intro w i h
  have hbit : w.getLsbD 26 = (opField w).getLsbD 0 := by simp [opField]
  refine ⟨decodeOfEncodeIsTheInstruction i (wellFormed_of_decode h), ?_⟩
  rw [hbit]
  exact encode_of_decode h

/-- Settles O51: each word is run through the decoder. -/
theorem specEncodingVectorsDecode : Obligations.SpecEncodingVectorsDecode := by
  unfold Obligations.SpecEncodingVectorsDecode
  decide

/-! ### assembling a listing -/

/-- A signed immediate lies in the range of the sign-extending forms (R80). -/
theorem asmSigned_toInt (imm : Imm) : asmSigned imm.toInt = some imm := by
  have hlo := BitVec.le_toInt imm
  have hhi := BitVec.toInt_lt (x := imm)
  rw [asmSigned, if_pos (by omega), BitVec.ofInt_toInt]

/-- An unsigned immediate lies in the range of the zero-extending forms (R80). -/
theorem asmUnsigned_toNat (imm : Imm) : asmUnsigned imm.toNat = some imm := by
  have hlt := imm.isLt
  rw [asmUnsigned, if_pos (by omega), BitVec.ofInt_natCast, BitVec.ofNat_toNat, BitVec.setWidth_eq]

/-- A canonical shift immediate is below 32 (R73). -/
theorem toNat_lt_of_isShiftAmount {imm : Imm} (h : imm.isShiftAmount = true) : imm.toNat < 32 := by
  rw [← canonicalShiftImm_eq h, canonicalShiftImm]
  simp
  omega

/-- A canonical shift immediate lies in the range of the shift forms (R73, R80). -/
theorem asmShift_toNat {imm : Imm} (h : imm.isShiftAmount = true) : asmShift imm.toNat = some imm := by
  have hlt := toNat_lt_of_isShiftAmount h
  rw [asmShift, if_pos (by omega), BitVec.ofInt_natCast, BitVec.ofNat_toNat, BitVec.setWidth_eq]

/-- Settles O52: by the form of the instruction: three registers, or an immediate within the range of its form. -/
theorem assemblerAcceptsEveryListing : Obligations.AssemblerAcceptsEveryListing := by
  intro i hwf
  cases i
  case addi rr rx imm | subi rr rx imm | muli rr rx imm | divi rr rx imm | remi rr rx imm =>
    exact congrArg (Option.map _) (asmSigned_toInt imm)
  case mului rr rx imm | divui rr rx imm | remui rr rx imm | andi rr rx imm | ori rr rx imm | xori rr rx imm |
      xnori rr rx imm =>
    exact congrArg (Option.map _) (asmUnsigned_toNat imm)
  case slli rr rx imm | slri rr rx imm | sari rr rx imm => exact congrArg (Option.map _) (asmShift_toNat hwf)
  case ldhi rr imm => exact congrArg (Option.map _) (asmUnsigned_toNat imm)
  all_goals rfl

end Sys2Proof.Machine

/-! PROOFS. The frame of every instruction, x[0], the order of a step's checks, faults, and what every step keeps (spec R22
to R27, R200 to R209, R232). -/

namespace Sys2Proof.Machine

/-! ### the outcome of an instruction -/

/-- Settles O32: a completed instruction is one register write and the pc advance. -/
theorem completionChangesOnlyTheDestinationAndThePc :
    Obligations.CompletionChangesOnlyTheDestinationAndThePc := by
  intro i s t h
  obtain ⟨_, v, rfl⟩ := exec_next h
  refine ⟨?_, fun r hr => readReg_of_exec_next h hr, ?_⟩
  · rw [advance_pc, writeReg_pc, nextPc_toNat]
  · simp

/-- An instruction whose divisor is 0 raises the fault with its own pc (R120, R201). -/
theorem exec_of_zeroDivisor {i : Instr} {s : State} (h : zeroDivisor i s = true) :
    exec i s = .fault (.divisionByZero s.pc) := by
  rcases exec_cases i s with ⟨hne, _⟩ | ⟨_, hraise⟩
  · exact absurd (h.symm.trans hne) (by decide)
  · exact hraise

/-- An instruction whose divisor is not 0 completes (R120, R208). -/
theorem exec_of_nonzeroDivisor {i : Instr} {s : State} (h : zeroDivisor i s = false) :
    ∃ v, exec i s = s.complete i.dest v := by
  rcases exec_cases i s with ⟨_, hcomplete⟩ | ⟨hzero, _⟩
  · exact hcomplete
  · exact absurd (h.symm.trans hzero) (by decide)

/-- A completion into x[0] discards the value (R22). -/
theorem complete_zero (s : State) (v : Word) : s.complete 0#5 v = .next s.advance := by
  rw [State.complete, writeReg_zero]

/-- Settles O34: a write to x[0] is discarded, so a completion into it is the pc advance alone. -/
theorem zeroRegisterReadsZeroAndDiscardsWrites : Obligations.ZeroRegisterReadsZeroAndDiscardsWrites := by
  refine ⟨readReg_zero, fun s v r => by rw [writeReg_zero], fun i s hdest => ⟨fun hne => ?_, exec_of_zeroDivisor⟩⟩
  obtain ⟨v, hv⟩ := exec_of_nonzeroDivisor hne
  rw [hv, hdest, complete_zero]

/-! ### the checks of a step -/

/-- A recorded fault is answered again (R203). -/
theorem step_of_record {s : State} {f : Fault} (h : s.faultRecord = some f) : step s = .fault f := by
  rw [step, front_of_record h]

/-- A misaligned pc or END belongs to no launch (R44). -/
theorem step_of_misaligned {s : State} (h : s.faultRecord = none) (ha : ¬ (Aligned s.pc ∧ Aligned s.endAddr)) :
    step s = .refused .misalignedLaunch := by
  simp only [step, State.front, h, if_pos ha]

/-- At END the run is over (R238). -/
theorem step_of_pc_eq_endAddr {s : State} (h : s.faultRecord = none) (hpc : Aligned s.pc) (hend : Aligned s.endAddr)
    (he : s.pc = s.endAddr) : step s = .refused .runOver := by
  simp only [step, State.front, h, if_neg (not_not_intro (And.intro hpc hend)), if_pos he]

/-- Settles O38: the checks one by one. -/
theorem stepChecksInOrder : Obligations.StepChecksInOrder :=
  ⟨fun _ _ => step_of_record, fun _ => step_of_misaligned, fun _ => step_of_pc_eq_endAddr, fun _ => step_of_no_word⟩

/-- The word at an aligned address with four listed bytes (R41, R45). -/
theorem word_of_readByte {m : Memory} {a : Word} {b0 b1 b2 b3 : Byte} (ha : Aligned a)
    (h0 : m.readByte a.toNat = some b0) (h1 : m.readByte (a.toNat + 1) = some b1)
    (h2 : m.readByte (a.toNat + 2) = some b2) (h3 : m.readByte (a.toNat + 3) = some b3) :
    m.word a = some (wordOfBytes b0 b1 b2 b3) := by
  rw [Memory.word, if_pos ha, h0, h1, h2, h3]

/-- Settles O39: the four bytes are the word at the pc. -/
theorem stepRunsTheDecodedInstruction : Obligations.StepRunsTheDecodedInstruction :=
  fun _ _ _ _ _ _ hs h0 h1 h2 h3 hi => step_of_decode_instr hs (word_of_readByte hs.2.1 h0 h1 h2 h3) hi

/-- Settles O37: the verdict on the word by its opcode, then what the step makes of the verdict. -/
theorem illegalAndRefusedWordsStopTheStep : Obligations.IllegalAndRefusedWordsStopTheStep :=
  fun _ w hs hw =>
    ⟨fun hop => step_of_decode_illegalInstruction hs hw ((decode_eq_illegalInstruction_iff w).mpr hop),
      fun hbit => step_of_decode_refused hs hw ((decode_eq_refused_iff w).mpr hbit)⟩

/-! ### faults -/

/-- Settles O36: the run ends in the state before the instruction with the fault recorded, where a step answers it again. -/
theorem faultLeavesTheStateAndEndsTheRun : Obligations.FaultLeavesTheStateAndEndsTheRun := by
  intro s w i hs hw hi hzero
  have hstep : step s = .fault (.divisionByZero s.pc) :=
    (step_of_decode_instr hs hw hi).trans (exec_of_zeroDivisor hzero)
  refine ⟨hstep, fun k => ⟨s.recordFault (.divisionByZero s.pc), runFor_fault hstep k, ?_⟩⟩
  exact ⟨fun r => recordFault_readReg s _ r, rfl, rfl, rfl, step_of_record rfl⟩

/-! ### launch premises -/

/-- Settles O53: a step changes neither PROGRAM, END nor the fault record, 4 added to an aligned pc leaves it aligned, and
x[0] reads 0 in every state. -/
theorem stepKeepsTheLaunchPremises : Obligations.StepKeepsTheLaunchPremises := by
  intro s t ⟨hprogram, hpc, hend, _, hrecord⟩ hstep
  obtain ⟨hpc', hprogram', hend', hrecord'⟩ := step_next_frame hstep
  refine ⟨⟨?_, ?_, ?_, readReg_zero t, ?_⟩, hprogram', hend'⟩
  · rw [ProgramLoaded, hprogram']
    exact hprogram
  · rw [hpc']
    exact nextPc_aligned hpc
  · rw [hend']
    exact hend
  · rw [hrecord', hrecord]

/-- Reading x[n + 1] of a launch gives cell n of INIT_REGS (R20, R33). -/
theorem launch_readReg (m : Memory) (e d : Word) (init : Vector Word 31) {n : Nat} (h : n < 31) :
    (State.launch m e d init).readReg (BitVec.ofNat 5 (n + 1)) = init[n] := by
  have htoNat : (BitVec.ofNat 5 (n + 1)).toNat = n + 1 := by
    rw [BitVec.toNat_ofNat]
    exact Nat.mod_eq_of_lt (by omega)
  have hne : BitVec.ofNat 5 (n + 1) ≠ 0#5 := fun h0 => by
    have := congrArg BitVec.toNat h0
    rw [htoNat] at this
    cases this
  simp [State.readReg, hne, htoNat]

/-- Settles O55: the arguments are the fields of the launch, and INIT_REGS are its cells. -/
theorem launchSetsTheGivenArguments : Obligations.LaunchSetsTheGivenArguments :=
  fun m e d init => ⟨readReg_zero _, fun _ h => launch_readReg m e d init h, rfl, rfl, rfl, rfl⟩

/-- Settles O54: the values of Config, an empty PROGRAM, and each register read off the cells that hold 0. -/
theorem resetMeetsTheLaunchPremises : Obligations.ResetMeetsTheLaunchPremises := by
  refine ⟨⟨⟨wf_nil, fun c hc => absurd hc List.not_mem_nil⟩, ?_⟩, rfl, rfl, ?_, fun _ => rfl⟩
  · decide
  · decide

end Sys2Proof.Machine

/-! PROOFS. A word placed in PROGRAM, and the launch on one word (spec R41, R45, R239). -/

namespace Sys2Proof.Machine

/-- No word stands at a misaligned address (R41). -/
theorem word_of_not_aligned (m : Memory) {a : Word} (h : ¬ Aligned a) : m.word a = none := by
  rw [Memory.word, if_neg h]

/-- The word at an address depends on its four bytes alone (R41). -/
theorem word_congr {m n : Memory} {a : Word} (h : ∀ k < 4, m.readByte (a.toNat + k) = n.readByte (a.toNat + k)) :
    m.word a = n.word a := by
  have h0 := h 0 (by decide)
  rw [Nat.add_zero] at h0
  simp only [Memory.word, h0, h 1 (by decide), h 2 (by decide), h 3 (by decide)]

/-- Byte `k` of the word placed at the word address of `a` (R45). -/
theorem readByte_placeWord_same (m : Memory) (a w : Word) {k : Nat} (hk : k < 4) :
    (m.placeWord a w).readByte ((alignDown a).toNat + k) = some (byteOfWord w k) := by
  have hbase := alignDown_toNat a
  rw [readByte_placeWord, if_pos (by omega), show ((alignDown a).toNat + k) % 4 = k by omega]

/-- A placed word is the word at its word address (R41, R45). -/
theorem word_placeWord_same (m : Memory) (a w : Word) : (m.placeWord a w).word (alignDown a) = some w := by
  have hbyte := fun k (hk : k < 4) => readByte_placeWord_same m a w hk
  rw [word_of_readByte (alignDown_aligned a) (hbyte 0 (by decide)) (hbyte 1 (by decide)) (hbyte 2 (by decide))
    (hbyte 3 (by decide)), wordOfBytes_byteOfWord]

/-- Placing a word changes no other word (R41). -/
theorem word_placeWord_ne (m : Memory) {a b : Word} (w : Word) (h : b ≠ alignDown a) :
    (m.placeWord a w).word b = m.word b := by
  by_cases hb : Aligned b
  · have hne : b.toNat ≠ (alignDown a).toNat := fun e => h (BitVec.eq_of_toNat_eq e)
    have hbase := alignDown_toNat a
    refine word_congr fun k hk => ?_
    rw [readByte_placeWord, if_neg (by omega)]
  · rw [word_of_not_aligned _ hb, word_of_not_aligned _ hb]

/-- Settles O58: the four bytes placed are those of the word, and an aligned address beside the word has other bytes. -/
theorem placedWordIsTheWordFetched : Obligations.PlacedWordIsTheWordFetched :=
  fun m a w => ⟨word_placeWord_same m a w, fun _ h => word_placeWord_ne m w h⟩

/-- With all 32 bits used, the launch on one word places that word. -/
theorem withFetchWord_eq_placeNext (s : State) (w : Word) : s.withFetchWord 32 w.toNat = s.placeNext w := by
  rw [State.withFetchWord, Nat.mod_eq_of_lt w.isLt, BitVec.ofNat_toNat, BitVec.setWidth_eq]

/-- A launch on one word fetches: END is aligned and is moved off the pc (R232, R238). -/
theorem fetches_placeNext (s : State) (w : Word) : Fetches (s.placeNext w) := by
  refine ⟨rfl, alignDown_aligned s.pc, ?_⟩
  rw [placeNext_endAddr, placeNext_pc]
  split
  · exact ⟨nextPc_aligned (alignDown_aligned s.pc), (nextPc_ne _).symm⟩
  · rename_i hne
    exact ⟨alignDown_aligned s.endAddr, Ne.symm hne⟩

/-- The word fetched there is the one placed (R42). -/
theorem word_placeNext (s : State) (w : Word) : (s.placeNext w).program.word (s.placeNext w).pc = some w := by
  have h := word_placeWord_same s.program (alignDown s.pc) w
  rwa [alignDown_eq_self (alignDown_aligned s.pc)] at h

/-- Settles O59: the launch on one word fetches that word; in a state that fetches the pc and END are aligned and differ,
so neither is moved. -/
theorem placedInstructionIsTheNextToRun : Obligations.PlacedInstructionIsTheNextToRun := by
  intro s w i hi
  rw [withFetchWord_eq_placeNext]
  refine ⟨step_of_decode_instr (fetches_placeNext s w) (word_placeNext s w) hi, placeNext_readReg s w, ?_⟩
  rintro ⟨_, hpc, hend, hne⟩
  rw [placeNext_pc, placeNext_endAddr, alignDown_eq_self hpc, alignDown_eq_self hend, if_neg (Ne.symm hne)]
  exact ⟨rfl, rfl⟩

end Sys2Proof.Machine

/-! PROOFS. Runs (spec R203, R213, R238): where they stand, when they end at END, and that they do not depend on where their
program stands. -/

namespace Sys2Proof.Machine

/-! ### one step of a run -/

theorem runFor_misaligned {s : State} (h : step s = .refused .misalignedLaunch) (k : Nat) :
    runFor (k + 1) s = .refused .misalignedLaunch s := by
  simp [runFor, h]

theorem runFor_outsideSection {s : State} {p w : Word} (h : step s = .refused (.outsideSection p w)) (k : Nat) :
    runFor (k + 1) s = .refused (.outsideSection p w) s := by
  simp [runFor, h]

/-- The refusals of a step, each with what it says of the state (R43, R44, R76, R238). -/
theorem step_refused_cases {s : State} {r : Refusal} (h : step s = .refused r) :
    r = .misalignedLaunch ∨ (r = .runOver ∧ s.pc = s.endAddr) ∨ (∃ p w, r = .outsideSection p w) ∨
      (r = .noWordAt s.pc ∧ s.program.word s.pc = none) := by
  cases hrecord : s.faultRecord with
  | some f =>
    rw [step_of_record hrecord] at h
    cases h
  | none =>
    by_cases halign : Aligned s.pc ∧ Aligned s.endAddr
    · by_cases hend : s.pc = s.endAddr
      · rw [step_of_pc_eq_endAddr hrecord halign.1 halign.2 hend] at h
        cases h
        exact .inr (.inl ⟨rfl, hend⟩)
      · rcases stepOutcomesAreTheListedOnes.2.2 s ⟨hrecord, halign.1, halign.2, hend⟩ with
          ⟨_, hs⟩ | ⟨_, hs⟩ | ⟨_, _, hs⟩ | ⟨p, w, hs⟩ | ⟨hs, hw⟩ <;> rw [hs] at h <;> cases h
        · exact .inr (.inr (.inl ⟨p, w, rfl⟩))
        · exact .inr (.inr (.inr ⟨rfl, hw⟩))
    · rw [step_of_misaligned hrecord halign] at h
      cases h
      exact .inl rfl

/-- The pc `k` instructions after the next one (R26). -/
theorem nextPc_add (a : Word) (k : Nat) :
    nextPc a + BitVec.ofNat 32 (4 * k) = a + BitVec.ofNat 32 (4 * (k + 1)) := by
  rw [nextPc, BitVec.add_assoc, Nat.mul_succ, Nat.add_comm, BitVec.ofNat_add]

/-! ### where a run stands -/

/-- How a run of `k` steps that completed `j` instructions, the last of them leaving `u`, may have come to stand (R203,
R238). -/
def StandsAt (k j : Nat) (u : State) : RunEnd → Prop
  | .running t => j = k ∧ t = u
  | .ended t => j < k ∧ t = u ∧ u.pc = u.endAddr
  | .faulted f t => j < k ∧ step u = .fault f ∧ t = u.recordFault f
  | .stuck t => j < k ∧ t = u ∧ u.program.word u.pc = none
  | .refused r t => j < k ∧ t = u ∧ step u = .refused r

/-- One more instruction before a run. -/
theorem StandsAt.succ {k j : Nat} {u : State} {e : RunEnd} (h : StandsAt k j u e) : StandsAt (k + 1) (j + 1) u e := by
  cases e with
  | running t => exact ⟨congrArg _ h.1, h.2⟩
  | ended t | faulted f t | stuck t | refused r t => exact ⟨Nat.succ_lt_succ h.1, h.2⟩

/-- A run whose first step completes nothing stands where it began, for the reason that step gives. -/
theorem standsAt_of_step_stops {s : State} (h : ∀ t, step s ≠ .next t) (k : Nat) :
    StandsAt (k + 1) 0 s (runFor (k + 1) s) := by
  have hlt : 0 < k + 1 := Nat.succ_pos k
  cases hstep : step s with
  | next t => exact absurd hstep (h t)
  | fault f =>
    rw [runFor_fault hstep]
    exact ⟨hlt, hstep, rfl⟩
  | refused r =>
    rcases step_refused_cases hstep with rfl | ⟨rfl, hend⟩ | ⟨p, w, rfl⟩ | ⟨rfl, hw⟩
    · rw [runFor_misaligned hstep]
      exact ⟨hlt, rfl, hstep⟩
    · rw [runFor_runOver hstep]
      exact ⟨hlt, rfl, hend⟩
    · rw [runFor_outsideSection hstep]
      exact ⟨hlt, rfl, hstep⟩
    · rw [runFor_stuck hstep]
      exact ⟨hlt, rfl, hw⟩

/-- A run completes some instructions in a straight line, and stands there (R204, R213). -/
theorem runFor_straightLine (k : Nat) (s : State) :
    ∃ j u, j ≤ k ∧ runFor j s = .running u ∧ u.pc = s.pc + BitVec.ofNat 32 (4 * j) ∧ u.program = s.program ∧
      u.endAddr = s.endAddr ∧ u.faultRecord = s.faultRecord ∧ StandsAt k j u (runFor k s) := by
  induction k generalizing s with
  | zero => exact ⟨0, s, Nat.le_refl 0, rfl, by simp, rfl, rfl, rfl, rfl, rfl⟩
  | succ k ih =>
    by_cases hnext : ∃ t, step s = .next t
    · obtain ⟨t, ht⟩ := hnext
      obtain ⟨hpc, hprogram, hend, hrecord⟩ := step_next_frame ht
      obtain ⟨j, u, hj, hrun, hupc, huprogram, huend, hurecord, hstands⟩ := ih t
      refine ⟨j + 1, u, Nat.succ_le_succ hj, (runFor_next ht j).trans hrun, ?_, huprogram.trans hprogram,
        huend.trans hend, hurecord.trans hrecord, ?_⟩
      · rw [hupc, hpc, nextPc_add]
      · rw [runFor_next ht]
        exact hstands.succ
    · exact ⟨0, s, Nat.zero_le _, rfl, by simp, rfl, rfl, rfl, standsAt_of_step_stops (not_exists.mp hnext) k⟩

/-- A run of `j` steps that has not ended goes on from where it stands. -/
theorem runFor_add {j : Nat} {s u : State} (h : runFor j s = .running u) (k : Nat) :
    runFor (j + k) s = runFor k u := by
  induction j generalizing s with
  | zero =>
    cases h
    rw [Nat.zero_add]
  | succ j ih =>
    by_cases hnext : ∃ t, step s = .next t
    · obtain ⟨t, ht⟩ := hnext
      rw [runFor_next ht] at h
      rw [Nat.succ_add, runFor_next ht, ih h]
    · have hstands := standsAt_of_step_stops (not_exists.mp hnext) j
      rw [h] at hstands
      exact absurd hstands.1 (Nat.succ_ne_zero j).symm

/-- Settles O56: by induction on the steps of the run, each either advancing the pc by 4 or ending the run; and from a
state at END the next step ends it. -/
theorem runsAreStraightLineAndPrecise : Obligations.RunsAreStraightLineAndPrecise := by
  refine ⟨runFor_straightLine, fun j s u hrun hrecord hpc hend he k => ?_⟩
  rw [Nat.add_assoc, runFor_add hrun]
  exact runFor_runOver (step_of_pc_eq_endAddr hrecord hpc hend he) k

/-! ### two runs of one program -/

/-- Two launches alike but for where they stand: the same registers, and END at the same distance from the pc (R41). -/
structure Relocated (s s' : State) : Prop where
  readReg_eq : ∀ r, s.readReg r = s'.readReg r
  record_left : s.faultRecord = none
  record_right : s'.faultRecord = none
  pc_left : Aligned s.pc
  pc_right : Aligned s'.pc
  end_left : Aligned s.endAddr
  end_right : Aligned s'.endAddr
  distance_eq : s.endAddr - s.pc = s'.endAddr - s'.pc

/-- Two runs from `s` and `s'` that end alike: the same kind, the same registers, the pc moved by the same distance. -/
def EndAlike (s s' : State) (e e' : RunEnd) : Prop :=
  e.kind = e'.kind ∧ (∀ r, e.state.readReg r = e'.state.readReg r) ∧ e.state.pc - s.pc = e'.state.pc - s'.pc

/-- Relocated states are at END together (R238). -/
theorem Relocated.at_end_iff {s s' : State} (h : Relocated s s') : s.pc = s.endAddr ↔ s'.pc = s'.endAddr := by
  rw [eq_comm, ← sub_eq_zero, h.distance_eq, sub_eq_zero, eq_comm]

/-- Relocated states stay so when both complete with one value in one register (R23, R26). -/
theorem Relocated.complete {s s' : State} (h : Relocated s s') (rr : RegNum) (v : Word) :
    Relocated (s.writeReg rr v).advance (s'.writeReg rr v).advance where
  readReg_eq r := by rw [readReg_completed, readReg_completed, h.readReg_eq]
  record_left := by simpa using h.record_left
  record_right := by simpa using h.record_right
  pc_left := by simpa using nextPc_aligned h.pc_left
  pc_right := by simpa using nextPc_aligned h.pc_right
  end_left := by simpa using h.end_left
  end_right := by simpa using h.end_right
  distance_eq := by simp [nextPc, ← sub_sub, h.distance_eq]

/-- Ends of one kind at the states the runs began in, up to the fault record, are alike. -/
theorem Relocated.endAlike_of_unmoved {s s' : State} (h : Relocated s s') {e e' : RunEnd} (hkind : e.kind = e'.kind)
    (hreg : ∀ r, e.state.readReg r = s.readReg r) (hreg' : ∀ r, e'.state.readReg r = s'.readReg r)
    (hpc : e.state.pc = s.pc) (hpc' : e'.state.pc = s'.pc) : EndAlike s s' e e' :=
  ⟨hkind, fun r => by rw [hreg, hreg', h.readReg_eq], by rw [hpc, hpc', sub_self, sub_self]⟩

/-- Runs that end alike after both pcs advanced end alike. -/
theorem EndAlike.of_advanced {s s' t t' : State} {e e' : RunEnd} (h : EndAlike t t' e e') (ht : t.pc = nextPc s.pc)
    (ht' : t'.pc = nextPc s'.pc) : EndAlike s s' e e' := by
  obtain ⟨hkind, hreg, hpc⟩ := h
  refine ⟨hkind, hreg, ?_⟩
  rw [ht, ht', nextPc, nextPc, ← sub_sub, ← sub_sub] at hpc
  exact sub_left_inj.mp (by rwa [sub_right_comm] at hpc)

/-- One instruction at two relocated states that fetch it: it completes at both with one value, or ends both runs (R120). -/
theorem Relocated.step_instr {s s' : State} (h : Relocated s s') {i : Instr} (hs : step s = exec i s)
    (hs' : step s' = exec i s') :
    (∃ rr v, step s = s.complete rr v ∧ step s' = s'.complete rr v) ∨
      ∀ k, EndAlike s s' (runFor (k + 1) s) (runFor (k + 1) s') := by
  obtain ⟨z, v, hx, hx'⟩ := exec_eq_divide_of_sources_agree (i := i) fun r _ => h.readReg_eq r
  cases z with
  | false =>
    rw [divide_of_ne rfl] at hx hx'
    exact .inl ⟨i.dest, v, hs.trans hx, hs'.trans hx'⟩
  | true =>
    rw [divide_of_zero rfl] at hx hx'
    refine .inr fun k => ?_
    rw [runFor_fault (hs.trans hx), runFor_fault (hs'.trans hx')]
    exact h.endAlike_of_unmoved rfl (fun _ => rfl) (fun _ => rfl) rfl rfl

/-- One step of two relocated states with the same word, or none, at their pcs: both complete with one value in one
register, or both runs end, and end alike. -/
theorem Relocated.step_cases {s s' : State} (h : Relocated s s')
    (hword : s.program.word s.pc = s'.program.word s'.pc) :
    (∃ rr v, step s = s.complete rr v ∧ step s' = s'.complete rr v) ∨
      ∀ k, EndAlike s s' (runFor (k + 1) s) (runFor (k + 1) s') := by
  by_cases hend : s.pc = s.endAddr
  · have hover := step_of_pc_eq_endAddr h.record_left h.pc_left h.end_left hend
    have hover' := step_of_pc_eq_endAddr h.record_right h.pc_right h.end_right (h.at_end_iff.mp hend)
    refine .inr fun k => ?_
    rw [runFor_runOver hover, runFor_runOver hover']
    exact h.endAlike_of_unmoved rfl (fun _ => rfl) (fun _ => rfl) rfl rfl
  · have hs : Fetches s := ⟨h.record_left, h.pc_left, h.end_left, hend⟩
    have hs' : Fetches s' := ⟨h.record_right, h.pc_right, h.end_right, fun he => hend (h.at_end_iff.mpr he)⟩
    cases hw : s.program.word s.pc with
    | none =>
      refine .inr fun k => ?_
      rw [runFor_stuck (step_of_no_word hs hw), runFor_stuck (step_of_no_word hs' (hword ▸ hw))]
      exact h.endAlike_of_unmoved rfl (fun _ => rfl) (fun _ => rfl) rfl rfl
    | some w =>
      have hw' : s'.program.word s'.pc = some w := hword ▸ hw
      cases hd : decode w with
      | instr i => exact h.step_instr (step_of_decode_instr hs hw hd) (step_of_decode_instr hs' hw' hd)
      | illegalInstruction =>
        refine .inr fun k => ?_
        rw [runFor_fault (step_of_decode_illegalInstruction hs hw hd),
          runFor_fault (step_of_decode_illegalInstruction hs' hw' hd)]
        exact h.endAlike_of_unmoved rfl (fun _ => rfl) (fun _ => rfl) rfl rfl
      | refused =>
        refine .inr fun k => ?_
        rw [runFor_outsideSection (step_of_decode_refused hs hw hd),
          runFor_outsideSection (step_of_decode_refused hs' hw' hd)]
        exact h.endAlike_of_unmoved rfl (fun _ => rfl) (fun _ => rfl) rfl rfl

/-- Relocated runs of the same words end alike (R41). -/
theorem Relocated.runFor_endAlike {k : Nat} {s s' : State} (h : Relocated s s')
    (hwords : ∀ j, j < k →
      s.program.word (s.pc + BitVec.ofNat 32 (4 * j)) = s'.program.word (s'.pc + BitVec.ofNat 32 (4 * j))) :
    EndAlike s s' (runFor k s) (runFor k s') := by
  induction k generalizing s s' with
  | zero => exact h.endAlike_of_unmoved rfl (fun _ => rfl) (fun _ => rfl) rfl rfl
  | succ k ih =>
    have hword : s.program.word s.pc = s'.program.word s'.pc := by simpa using hwords 0 (Nat.succ_pos k)
    rcases h.step_cases hword with ⟨rr, v, hs, hs'⟩ | hstop
    · rw [runFor_next hs, runFor_next hs']
      refine (ih (h.complete rr v) fun j hj => ?_).of_advanced (by simp) (by simp)
      simpa [nextPc_add] using hwords (j + 1) (Nat.succ_lt_succ hj)
    · exact hstop k

/-- Settles O57: the two runs take the same steps, since each step reads the same word and the same registers. -/
theorem runsDoNotDependOnWhereTheProgramStands : Obligations.RunsDoNotDependOnWhereTheProgramStands :=
  fun _ _ _ hreg hrecord hrecord' hpc hpc' hend hend' hdistance hwords =>
    (Relocated.mk hreg hrecord hrecord' hpc hpc' hend hend' hdistance).runFor_endAlike hwords

end Sys2Proof.Machine

/-! PROOFS. The remaining divide and remainder instructions (spec R122, R123, R125 to R127, R129): encoding line, assembler
line, fault, result. -/

namespace Sys2Proof.Machine

/-! ### results -/

/-- The truncated signed quotient comes from the integer of size |a| / |b| and of the sign of a * b (R121). -/
theorem trunc32_sdiv (a b : Int) :
    ∃ q : Int, q.natAbs = a.natAbs / b.natAbs ∧ (0 ≤ a * b → 0 ≤ q) ∧ (a * b ≤ 0 → q ≤ 0) ∧
      ((trunc32 (sdiv a b)).toNat : Int) = q % 2 ^ 32 :=
  ⟨sdiv a b, natAbs_sdiv a b, sdiv_nonneg, sdiv_nonpos, trunc32_toNat _⟩

/-- The signed remainder by a divisor in the signed range survives truncation, since it is smaller than the divisor (R121). -/
theorem signed_trunc32_srem (a : Int) {b : Int} (hb : b ≠ 0) (hlo : -2 ^ 31 ≤ b) (hhi : b < 2 ^ 31) :
    signed (trunc32 (srem a b)) = srem a b := by
  have hlt := natAbs_srem_lt a hb
  exact signed_trunc32 (by omega) (by omega)

/-- The truncated signed remainder by a divisor in the signed range: it is the dividend less a multiple of the divisor,
smaller than the divisor, and 0 or of the dividend's sign (R121). -/
theorem trunc32_srem (a : Int) {b : Int} (hb : b ≠ 0) (hlo : -2 ^ 31 ≤ b) (hhi : b < 2 ^ 31) :
    (∃ q : Int, a = b * q + (trunc32 (srem a b)).toInt) ∧ (trunc32 (srem a b)).toInt.natAbs < b.natAbs ∧
      ((trunc32 (srem a b)).toInt = 0 ∨ ((trunc32 (srem a b)).toInt < 0 ↔ a < 0)) := by
  have hval : (trunc32 (srem a b)).toInt = srem a b := signed_trunc32_srem a hb hlo hhi
  rw [hval]
  exact ⟨⟨sdiv a b, by rw [srem]; omega⟩, natAbs_srem_lt a hb, srem_sign a b⟩

/-- A word that is not 0 has a signed reading that is not 0 (R7). -/
theorem signed_ne_zero {v : Word} (h : v ≠ 0#32) : signed v ≠ 0 :=
  fun h0 => h (BitVec.eq_of_toInt_eq (h0.trans BitVec.toInt_zero.symm))

/-! ### the instructions -/

/-- Settles O9: the truncated quotient of the signed readings. -/
theorem divWritesTheQuotientTowardZero : Obligations.DivWritesTheQuotientTowardZero := by
  refine ⟨encodedRRR_of_opcode (op := 0x08#6) rfl fun w hop => by simp [decode, hop], fun _ _ _ => rfl, ?_⟩
  intro rr rx ry s
  refine ⟨fun hzero => raisesDivisionByZero_of_divide rfl (beq_iff_eq.mpr hzero), fun hne => ?_⟩
  exact completes_of_divide rfl (beq_false_of_ne hne) fun _ => trunc32_sdiv _ _

/-- Settles O10: the divisor is the signed value of the immediate, which sign extension keeps. -/
theorem diviWritesTheQuotientTowardZero : Obligations.DiviWritesTheQuotientTowardZero := by
  refine ⟨encodedRRI_of_opcode (op := 0x09#6) rfl fun w hop => by simp [decode, hop],
    assembledRRI_of_asmSigned fun _ _ _ => rfl, ?_⟩
  intro rr rx imm s
  refine ⟨fun hzero => raisesDivisionByZero_of_divide rfl (beq_iff_eq.mpr hzero), fun hne => ?_⟩
  refine completes_of_divide rfl (beq_false_of_ne hne) fun _ => ?_
  rw [signed_sext32]
  exact trunc32_sdiv _ _

/-- Settles O12: the quotient is at most the dividend, so truncation keeps it. -/
theorem divuiWritesTheUnsignedQuotient : Obligations.DivuiWritesTheUnsignedQuotient := by
  refine ⟨encodedRRI_of_opcode (op := 0x0B#6) rfl fun w hop => by simp [decode, hop],
    assembledRRI_of_asmUnsigned fun _ _ _ => rfl, ?_⟩
  intro rr rx imm s
  refine ⟨fun hzero => raisesDivisionByZero_of_divide rfl (beq_iff_eq.mpr hzero), fun hne => ?_⟩
  refine completes_of_divide rfl (beq_false_of_ne hne) fun _ => ?_
  rw [unsigned_zext32]
  exact trunc32_natCast_toNat_of_le (Nat.div_le_self (unsigned (s.readReg rx)) imm.toNat)

/-- Settles O13: the remainder of the signed readings, which truncation keeps. -/
theorem remWritesTheRemainderOfTheDividendsSign : Obligations.RemWritesTheRemainderOfTheDividendsSign := by
  refine ⟨encodedRRR_of_opcode (op := 0x0C#6) rfl fun w hop => by simp [decode, hop], fun _ _ _ => rfl, ?_⟩
  intro rr rx ry s
  refine ⟨fun hzero => raisesDivisionByZero_of_divide rfl (beq_iff_eq.mpr hzero), fun hne => ?_⟩
  exact completes_of_divide rfl (beq_false_of_ne hne) fun _ =>
    trunc32_srem _ (signed_ne_zero hne) (le_signed _) (signed_lt _)

/-- Settles O14: the divisor is the signed value of the immediate, which sign extension keeps. -/
theorem remiWritesTheRemainderOfTheDividendsSign : Obligations.RemiWritesTheRemainderOfTheDividendsSign := by
  refine ⟨encodedRRI_of_opcode (op := 0x0D#6) rfl fun w hop => by simp [decode, hop],
    assembledRRI_of_asmSigned fun _ _ _ => rfl, ?_⟩
  intro rr rx imm s
  refine ⟨fun hzero => raisesDivisionByZero_of_divide rfl (beq_iff_eq.mpr hzero), fun hne => ?_⟩
  refine completes_of_divide rfl (beq_false_of_ne hne) fun _ => ?_
  have hb : imm.toInt ≠ 0 := fun h0 => hne ((toInt_eq_zero_iff imm).mp h0)
  have hlo := le_signed (sext32 imm)
  have hhi := signed_lt (sext32 imm)
  rw [signed_sext32] at hlo hhi ⊢
  exact trunc32_srem _ hb hlo hhi

/-- Settles O16: the remainder is at most the dividend, so truncation keeps it. -/
theorem remuiWritesTheUnsignedRemainder : Obligations.RemuiWritesTheUnsignedRemainder := by
  refine ⟨encodedRRI_of_opcode (op := 0x0F#6) rfl fun w hop => by simp [decode, hop],
    assembledRRI_of_asmUnsigned fun _ _ _ => rfl, ?_⟩
  intro rr rx imm s
  refine ⟨fun hzero => raisesDivisionByZero_of_divide rfl (beq_iff_eq.mpr hzero), fun hne => ?_⟩
  refine completes_of_divide rfl (beq_false_of_ne hne) fun _ => ?_
  rw [unsigned_zext32, urem_eq]
  exact trunc32_natCast_toNat_of_le (Nat.mod_le (unsigned (s.readReg rx)) imm.toNat)

/-- The overflow pair: the quotient 2^31 is truncated to 0x80000000 and the remainder is 0 (R131). -/
theorem trunc32_overflow :
    trunc32 (sdiv (signed 0x80000000#32) (signed 0xFFFFFFFF#32)) = 0x80000000#32 ∧
      trunc32 (srem (signed 0x80000000#32) (signed 0xFFFFFFFF#32)) = 0#32 := by decide

/-- Settles O43: the immediate 0xFFFF extends to the divisor of the register forms, so one pair serves all four. -/
theorem signedOverflowGivesTheTruncatedQuotient : Obligations.SignedOverflowGivesTheTruncatedQuotient := by
  obtain ⟨hquot, hrem⟩ := trunc32_overflow
  refine ⟨fun rr rx ry s hx hy => ?_, fun rr rx s hx => ?_⟩
  · have hne : (s.readReg ry == 0#32) = false := by rw [hy]; rfl
    refine ⟨completes_of_divide rfl hne fun _ => ?_, completes_of_divide rfl hne fun _ => ?_⟩
    · rw [hx, hy, hquot]
    · rw [hx, hy, hrem]
  · have hext : sext32 0xFFFF#16 = 0xFFFFFFFF#32 := by decide
    refine ⟨completes_of_divide rfl rfl fun _ => ?_, completes_of_divide rfl rfl fun _ => ?_⟩
    · rw [hx, hext, hquot]
    · rw [hx, hext, hrem]

end Sys2Proof.Machine

/-! PROOFS. Laws between instructions (spec R81, R109, R132, R167, R181). -/

namespace Sys2Proof.Machine

/-! ### products -/

/-- Two completions into one register are the same outcome exactly when the value is, or is discarded (R22, R23). -/
theorem complete_eq_complete_iff (s : State) (rr : RegNum) (v u : Word) :
    s.complete rr v = s.complete rr u ↔ rr = 0#5 ∨ v = u := by
  constructor
  · intro h
    by_cases hrr : rr = 0#5
    · exact .inl hrr
    · have hread := congrArg (State.readReg · rr) (Host.Outcome.next.inj h)
      rw [readReg_completed, readReg_completed, if_pos ⟨rfl, hrr⟩, if_pos ⟨rfl, hrr⟩] at hread
      exact .inr hread
  · rintro (rfl | rfl)
    · rw [complete_zero, complete_zero]
    · rfl

/-- Truncation is equal exactly for numbers that differ by a multiple of 2^32 (R8). -/
theorem trunc32_eq_iff (m n : Int) : trunc32 m = trunc32 n ↔ m ≡ n [ZMOD 2 ^ 32] :=
  ⟨fun h => by rw [Int.ModEq, ← trunc32_toNat, ← trunc32_toNat, h], trunc32_congr⟩

/-- The signed value of an immediate is its unsigned one, less 2^16 where bit 15 is set (R7). -/
theorem toInt_eq_toNat_sub (i : Imm) : i.toInt = i.toNat - if i.getLsbD 15 then 2 ^ 16 else 0 := by
  have hmsb : i.msb = i.getLsbD 15 := BitVec.msb_eq_getLsbD_last i
  rw [BitVec.toInt_eq_msb_cond, hmsb]
  split <;> simp

/-- The signed and the unsigned product by an immediate have the same low 32 bits exactly where bit 15 of the immediate is 0
or the low half of the register is: they differ by the register times 2^16, or by nothing (R109). -/
theorem trunc32_mul_imm_eq_iff (x : Word) (i : Imm) :
    trunc32 (signed x * i.toInt) = trunc32 ((unsigned x : Int) * i.toNat) ↔
      i.getLsbD 15 = false ∨ x.extractLsb' 0 16 = 0#16 := by
  have hx : signed x * i.toInt ≡ (unsigned x : Int) * i.toInt [ZMOD 2 ^ 32] := Int.ModEq.mul_right _ (signed_emod x)
  have hlow : x.extractLsb' 0 16 = 0#16 ↔ unsigned x % 2 ^ 16 = 0 := by
    rw [← BitVec.toNat_inj]
    simp [unsigned]
  rw [trunc32_congr hx, trunc32_eq_iff, toInt_eq_toNat_sub, hlow]
  cases i.getLsbD 15 with
  | false => simp
  | true =>
    simp only [Int.ModEq, if_true, mul_sub, Bool.true_eq_false, false_or]
    omega

/-- Settles O41: the two readings of a register agree modulo 2^32, and two completions agree where their values do. -/
theorem signedAndUnsignedProductsAgreeOnRegisters : Obligations.SignedAndUnsignedProductsAgreeOnRegisters := by
  refine ⟨fun rr rx ry s => ?_, fun rr rx imm s => ?_⟩
  · have hmul := Int.ModEq.mul (signed_emod (s.readReg rx)) (signed_emod (s.readReg ry))
    exact congrArg (s.complete rr) (trunc32_congr hmul)
  · refine (complete_eq_complete_iff s rr _ _).trans (or_congr_right ?_)
    rw [signed_sext32, unsigned_zext32]
    exact trunc32_mul_imm_eq_iff (s.readReg rx) imm

/-! ### quotient and remainder -/

/-- The low 32 bits of quotient, divisor and remainder fit together as the integers do (R132). -/
theorem trunc32_quotient_mul_add (q a b : Int) : trunc32 q * trunc32 b + trunc32 (a - b * q) = trunc32 a := by
  simp only [trunc32, ← BitVec.ofInt_mul, ← BitVec.ofInt_add]
  congr 1
  ring

/-- The same for the unsigned pair (R130, R132). -/
theorem trunc32_udiv_mul_add (a b : Nat) :
    trunc32 (udiv a b : Int) * trunc32 (b : Int) + trunc32 (urem a b : Int) = trunc32 (a : Int) := by
  have hle : b * udiv a b ≤ a := Nat.mul_div_le a b
  rw [urem, Int.natCast_sub hle, Int.natCast_mul, trunc32_quotient_mul_add]

/-- A divide and a remainder with a divisor that is not 0, into registers other than x[0], both complete, and their results
fit together where their values do (R120, R132). -/
theorem divide_pair_fits {i j : Instr} {s : State} {z : Bool} {v u y x : Word} (hi : exec i s = s.divide z i.dest v)
    (hj : exec j s = s.divide z j.dest u) (hz : z = false) (hi0 : i.dest ≠ 0#5) (hj0 : j.dest ≠ 0#5)
    (hfit : v * y + u = x) :
    ∃ t t', exec i s = .next t ∧ exec j s = .next t' ∧ t.readReg i.dest * y + t'.readReg j.dest = x := by
  refine ⟨_, _, hi.trans (divide_of_ne hz _ _), hj.trans (divide_of_ne hz _ _), ?_⟩
  rw [readReg_completed, readReg_completed, if_pos ⟨rfl, hi0⟩, if_pos ⟨rfl, hj0⟩, hfit]

/-- Settles O42: the identity of the integers, truncated; a truncated reading of a word is the word. -/
theorem quotientTimesDivisorPlusRemainderIsTheDividend :
    Obligations.QuotientTimesDivisorPlusRemainderIsTheDividend := by
  have hsigned : ∀ x y : Word,
      trunc32 (sdiv (signed x) (signed y)) * y + trunc32 (srem (signed x) (signed y)) = x := fun x y => by
    have h := trunc32_quotient_mul_add (sdiv (signed x) (signed y)) (signed x) (signed y)
    rwa [trunc32_signed, trunc32_signed] at h
  have hunsigned : ∀ x y : Word, trunc32 (udiv (unsigned x) (unsigned y) : Int) * y +
      trunc32 (urem (unsigned x) (unsigned y) : Int) = x := fun x y => by
    have h := trunc32_udiv_mul_add (unsigned x) (unsigned y)
    rwa [trunc32_unsigned, trunc32_unsigned] at h
  refine ⟨fun q r rx ry s hne hq hr => ?_, fun q r rx ry s hne hq hr => ?_, fun q r rx imm s hne hq hr => ?_,
    fun q r rx imm s hne hq hr => ?_⟩
  · exact divide_pair_fits (i := .div q rx ry) (j := .rem r rx ry) rfl rfl (beq_false_of_ne hne) hq hr (hsigned _ _)
  · exact divide_pair_fits (i := .divu q rx ry) (j := .remu r rx ry) rfl rfl (beq_false_of_ne hne) hq hr
      (hunsigned _ _)
  · exact divide_pair_fits (i := .divi q rx imm) (j := .remi r rx imm) rfl rfl (beq_false_of_ne hne) hq hr
      (hsigned _ _)
  · exact divide_pair_fits (i := .divui q rx imm) (j := .remui r rx imm) rfl rfl (beq_false_of_ne hne) hq hr
      (hunsigned _ _)

/-! ### shifts as arithmetic -/

/-- A left shift multiplies by 2^n modulo 2^32 (R161). -/
theorem shiftLeft_toNat (v : Word) (n : Nat) : (shiftLeft v n).toNat = v.toNat * 2 ^ n % 2 ^ 32 := by
  rw [shiftLeft, BitVec.toNat_shiftLeft, Nat.shiftLeft_eq]

/-- A logical right shift is unsigned floor division by 2^n (R163). -/
theorem shiftRightLogical_toNat (v : Word) (n : Nat) : (shiftRightLogical v n).toNat = v.toNat / 2 ^ n := by
  rw [shiftRightLogical, BitVec.toNat_ushiftRight, Nat.shiftRight_eq_div_pow]

/-- An arithmetic right shift is signed floor division by 2^n (R165, R167). -/
theorem shiftRightArith_toInt (v : Word) (n : Nat) : (shiftRightArith v n).toInt = v.toInt / 2 ^ n := by
  rw [shiftRightArith, BitVec.toInt_sshiftRight, Int.shiftRight_eq_div_pow]
  norm_cast

/-- Settles O45: each shift by its amount, and the amount is the operand modulo 32. -/
theorem shiftsAreMultiplicationAndFloorDivision : Obligations.ShiftsAreMultiplicationAndFloorDivision := by
  refine ⟨fun rr rx ry s => ?_, fun rr rx imm s => ?_⟩
  · rw [← shiftOfReg_eq]
    exact ⟨completes_of_complete rfl fun _ => shiftLeft_toNat _ _,
      completes_of_complete rfl fun _ => shiftRightLogical_toNat _ _,
      completes_of_complete rfl fun _ => shiftRightArith_toInt _ _⟩
  · rw [← shiftOfImm_eq]
    exact ⟨completes_of_complete rfl fun _ => shiftLeft_toNat _ _,
      completes_of_complete rfl fun _ => shiftRightLogical_toNat _ _,
      completes_of_complete rfl fun _ => shiftRightArith_toInt _ _⟩

/-! ### constants -/

/-- The two halves of a word, one placed high and one zero-extended, make the word (R181). -/
theorem placeHigh_or_zext32 (w : Word) : placeHigh (w.extractLsb' 16 16) ||| zext32 (w.extractLsb' 0 16) = w := by
  apply BitVec.eq_of_getLsbD_eq
  intro k hk
  rw [BitVec.getLsbD_or, placeHigh_getLsbD, zext32_getLsbD, BitVec.getLsbD_extractLsb', BitVec.getLsbD_extractLsb']
  by_cases h : k < 16
  · simp [h]
  · simp [h, show k - 16 < 16 by omega, show 16 + (k - 16) = k by omega]

/-- Settles O46: LDHI leaves the upper half in a destination other than x[0], ORI joins the lower half to it, and neither
writes another register. -/
theorem ldhiThenOriBuildsAnyConstant : Obligations.LdhiThenOriBuildsAnyConstant := by
  intro d K s
  refine ⟨_, _, rfl, rfl, ?_, fun r hr => ?_⟩
  · rw [readReg_completed, readReg_completed]
    by_cases hd : d = 0#5
    · subst hd
      simp
    · simp [hd, placeHigh_or_zext32]
  · have hne : ¬ (r = d ∧ d ≠ 0#5) := fun hc => hr hc.1
    rw [readReg_completed, if_neg hne, readReg_completed, if_neg hne]

/-! ### idioms through x[0] -/

theorem unsigned_zero : unsigned 0#32 = 0 := rfl

/-- The two's complement of a word is the truncated negation of its unsigned reading (R8). -/
theorem trunc32_neg_unsigned (v : Word) : trunc32 (-(unsigned v : Int)) = -v := by
  rw [trunc32, BitVec.ofInt_neg]
  exact congrArg Neg.neg (trunc32_unsigned v)

/-- Settles O47: each idiom is its instruction with 0 for the operand x[0]. -/
theorem zeroRegisterIdioms : Obligations.ZeroRegisterIdioms := by
  refine ⟨fun d r s => ⟨?_, ?_, ?_, ?_⟩, fun d c s => ⟨?_, ?_⟩, rfl, fun s => complete_zero s _⟩
  · refine completes_of_complete rfl fun _ => ?_
    rw [readReg_zero, unsigned_zero, Int.natCast_zero, Int.add_zero, trunc32_unsigned]
  · refine completes_of_complete rfl fun _ => ?_
    rw [readReg_zero, BitVec.or_zero]
  · refine completes_of_complete rfl fun _ => ?_
    rw [readReg_zero, xnorWord, BitVec.xor_zero]
  · refine completes_of_complete rfl fun _ => ?_
    rw [readReg_zero, unsigned_zero, Int.natCast_zero, Int.zero_sub, trunc32_neg_unsigned]
  · refine completes_of_complete rfl fun _ => ?_
    rw [readReg_zero, unsigned_zero, Int.natCast_zero, Int.zero_add, trunc32_unsigned]
    exact signed_sext32 c
  · refine completes_of_complete rfl fun _ => ?_
    rw [readReg_zero, BitVec.zero_or]
    exact unsigned_zext32 c

end Sys2Proof.Machine
